-- ==== Sys2Proof/Word.lean ====
section
/-! DEFINITION. The word types of the CRC-8 engine (spec/00_scope.md R9, R10): every value is unsigned, bit 0 is the
least significant bit, and the only arithmetic is `^^^`, `<<<` truncated to eight bits and `&&&` on `BitVec`. -/

namespace Sys2Proof

/-- `u32`: a command word or a response word (R60, R66). -/
abbrev Word := BitVec 32

/-- `u8`: a polynomial, a data byte, a running value, a table index or a table entry (R7, R61). -/
abbrev Byte := BitVec 8

/-- A 4-bit slot index `T` or context index `C` of a command word (R61, R62). -/
abbrev Index := BitVec 4

end Sys2Proof
end

