-- ==== Sys2Proof/Syntax.lean ====
section
/-! DEFINITION. The ten commands of spec/opcode_table.json (spec/30_encoding.md R63), operands in the order of the
assembler syntax (R69). An operand has exactly the width of its field (R61), so every term is a command some word
spells; a slot or context that the engine does not hold is still a command and fails when executed (R64). -/

namespace Sys2Proof

inductive Instr where
  /-- BUILD t, poly (R80). -/
  | build (t : Index) (poly : Byte)
  /-- BIND c, t (R100). -/
  | bind (c t : Index)
  /-- WRITE c, byte (R103). -/
  | write (c : Index) (b : Byte)
  /-- RESET c (R105). -/
  | reset (c : Index)
  /-- SUM8 c (R107). -/
  | sum8 (c : Index)
  /-- UPDATE t, current, byte (R90). -/
  | update (t : Index) (v b : Byte)
  /-- TREAD t, index (R84). -/
  | tread (t : Index) (i : Byte)
  /-- SIZE (R110). -/
  | size
  /-- BLKSZ (R112). -/
  | blksz
  /-- RDSTAT (R120). -/
  | rdstat
  deriving DecidableEq, Repr

end Sys2Proof
end

