-- ==== Sys2Proof/WellFormed.lean ====
section
/-! DEFINITION. Well-formedness of a command as it is written (spec/30_encoding.md R69): operands are numbers, and "An
assembler refuses an operand that does not fit its field (`t`, `c` above 15; `poly`, `byte`, `current`, `index` above
255)". A written command that passes the check is exactly an `Instr`; `Instr` itself needs no check, since its operands
have the widths of their fields. -/

namespace Sys2Proof

/-- One line of assembler (R69): a mnemonic and its operands as plain numbers. -/
inductive AsmLine where
  | build (t poly : Nat)
  | bind (c t : Nat)
  | write (c byte : Nat)
  | reset (c : Nat)
  | sum8 (c : Nat)
  | update (t current byte : Nat)
  | tread (t index : Nat)
  | size
  | blksz
  | rdstat
  deriving DecidableEq, Repr

/-- A slot or context operand fits its 4-bit field. -/
def fitsIndex (n : Nat) : Bool := decide (n ≤ 15)

/-- A byte operand fits its 8-bit field. -/
def fitsByte (n : Nat) : Bool := decide (n ≤ 255)

/-- The assembler's check of R69: every operand fits its field. -/
def AsmLine.wellFormed : AsmLine → Bool
  | .build t poly => fitsIndex t && fitsByte poly
  | .bind c t => fitsIndex c && fitsIndex t
  | .write c byte => fitsIndex c && fitsByte byte
  | .reset c => fitsIndex c
  | .sum8 c => fitsIndex c
  | .update t current byte => fitsIndex t && fitsByte current && fitsByte byte
  | .tread t index => fitsIndex t && fitsByte index
  | .size => true
  | .blksz => true
  | .rdstat => true

/-- The command a line spells; meant for a line that passed the check. -/
def AsmLine.operands : AsmLine → Instr
  | .build t poly => .build (BitVec.ofNat 4 t) (BitVec.ofNat 8 poly)
  | .bind c t => .bind (BitVec.ofNat 4 c) (BitVec.ofNat 4 t)
  | .write c byte => .write (BitVec.ofNat 4 c) (BitVec.ofNat 8 byte)
  | .reset c => .reset (BitVec.ofNat 4 c)
  | .sum8 c => .sum8 (BitVec.ofNat 4 c)
  | .update t current byte => .update (BitVec.ofNat 4 t) (BitVec.ofNat 8 current) (BitVec.ofNat 8 byte)
  | .tread t index => .tread (BitVec.ofNat 4 t) (BitVec.ofNat 8 index)
  | .size => .size
  | .blksz => .blksz
  | .rdstat => .rdstat

/-- Reading a line: the command it spells, or nothing where the assembler refuses it. -/
def AsmLine.toInstr (l : AsmLine) : Option Instr := if l.wellFormed then some l.operands else none

end Sys2Proof
end

