-- ==== Sys2Proof/Decode.lean ====
section
/-! DEFINITION. Decoding and encoding of command words (spec/30_encoding.md R60 to R65, R69, R71). A command is one whole
32-bit word at the port; there are no bytes to order (spec/20_memory.md R44). -/

namespace Sys2Proof

/-! The fields of a command word (R61), each read as an unsigned number (R62). -/

/-- Bits 31:28. -/
def fieldOP (w : Word) : BitVec 4 := w.extractLsb' 28 4

/-- Bits 27:24, "reserved, must be 0". -/
def fieldRSV (w : Word) : BitVec 4 := w.extractLsb' 24 4

/-- Bits 23:20. -/
def fieldT (w : Word) : Index := w.extractLsb' 20 4

/-- Bits 19:16. -/
def fieldC (w : Word) : Index := w.extractLsb' 16 4

/-- Bits 15:8. -/
def fieldV (w : Word) : Byte := w.extractLsb' 8 8

/-- Bits 7:0. -/
def fieldB (w : Word) : Byte := w.extractLsb' 0 8

/-- The word with these six fields (R61). -/
def packWord (op rsv : BitVec 4) (t c : Index) (v b : Byte) : Word :=
  op.setWidth 32 <<< 28 ||| rsv.setWidth 32 <<< 24 ||| t.setWidth 32 <<< 20 ||| c.setWidth 32 <<< 16
    ||| v.setWidth 32 <<< 8 ||| b.setWidth 32

/-- Why a word spells no command (R132). The engine reports one code, ILLEGAL, for all three. -/
inductive IllegalWord where
  /-- `OP` is 0x0 or 0xB to 0xF. -/
  | opcode (op : BitVec 4)
  /-- `OP` is a command's and `RSV` is not zero. -/
  | reserved (rsv : BitVec 4)
  /-- `OP` is a command's, `RSV` is zero and a field the command does not use is not zero. -/
  | unusedField
  deriving DecidableEq, Repr

/-- R64: the command `i`, if the fields it does not use are zero. -/
def ifUnusedZero (zero : Bool) (i : Instr) : Except IllegalWord Instr :=
  if zero then .ok i else .error .unusedField

/-- The command of a word whose `RSV` is zero, by the opcode map of R63: "every other field of bits 27:0 must be
zero". -/
def decodeByOpcode (op : BitVec 4) (t c : Index) (v b : Byte) : Except IllegalWord Instr :=
  match op.toNat with
  | 0x1 => ifUnusedZero (c == 0 && v == 0) (.build t b)
  | 0x2 => ifUnusedZero (v == 0 && b == 0) (.bind c t)
  | 0x3 => ifUnusedZero (t == 0 && v == 0) (.write c b)
  | 0x4 => ifUnusedZero (t == 0 && v == 0 && b == 0) (.reset c)
  | 0x5 => ifUnusedZero (t == 0 && v == 0 && b == 0) (.sum8 c)
  | 0x6 => ifUnusedZero (c == 0) (.update t v b)
  | 0x7 => ifUnusedZero (c == 0 && v == 0) (.tread t b)
  | 0x8 => ifUnusedZero (t == 0 && c == 0 && v == 0 && b == 0) .size
  | 0x9 => ifUnusedZero (t == 0 && c == 0 && v == 0 && b == 0) .blksz
  | 0xA => ifUnusedZero (t == 0 && c == 0 && v == 0 && b == 0) .rdstat
  | _ => .error (.opcode op)

/-- Decoding (R71): total; a word is exactly one command, or it is illegal with the reason named (R132). -/
def decode (w : Word) : Except IllegalWord Instr :=
  if fieldOP w = 0x0 ∨ fieldOP w ≥ 0xB then .error (.opcode (fieldOP w))
  else if fieldRSV w ≠ 0 then .error (.reserved (fieldRSV w))
  else decodeByOpcode (fieldOP w) (fieldT w) (fieldC w) (fieldV w) (fieldB w)

/-- The word of a command (R63, R69): its opcode, its operands in their fields, every other field zero. -/
def encode : Instr → Word
  | .build t poly => packWord 0x1 0 t 0 0 poly
  | .bind c t => packWord 0x2 0 t c 0 0
  | .write c b => packWord 0x3 0 0 c 0 b
  | .reset c => packWord 0x4 0 0 c 0 0
  | .sum8 c => packWord 0x5 0 0 c 0 0
  | .update t v b => packWord 0x6 0 t 0 v b
  | .tread t i => packWord 0x7 0 t 0 0 i
  | .size => packWord 0x8 0 0 0 0 0
  | .blksz => packWord 0x9 0 0 0 0 0
  | .rdstat => packWord 0xA 0 0 0 0 0

/-- The assembler (R69): the word of a line, or nothing where an operand does not fit its field. -/
def assemble (l : AsmLine) : Option Word := l.toInstr.map encode

/-! The text of a line of assembler (R69): "one command per line, the mnemonic followed by its operands separated by
commas, in this order; numbers are decimal or `0x`-prefixed hexadecimal; `;` starts a comment" (log 9). -/

/-- A blank of the text. -/
def isBlank (ch : Char) : Bool := ch == ' ' || ch == '\t'

/-- A text without the blanks at its two ends. -/
def trimBlanks (text : List Char) : List Char := ((text.dropWhile isBlank).reverse.dropWhile isBlank).reverse

/-- The value of a decimal or hexadecimal digit. -/
def digitValue (base : Nat) (ch : Char) : Option Nat :=
  let value :=
    if '0' ≤ ch ∧ ch ≤ '9' then some (ch.toNat - '0'.toNat)
    else if 'a' ≤ ch ∧ ch ≤ 'f' then some (ch.toNat - 'a'.toNat + 10)
    else if 'A' ≤ ch ∧ ch ≤ 'F' then some (ch.toNat - 'A'.toNat + 10)
    else none
  value.filter (· < base)

/-- The number a run of digits spells, after the digits already read. -/
def digitsValue (base : Nat) : Nat → List Char → Option Nat
  | n, [] => some n
  | n, ch :: rest =>
    match digitValue base ch with
    | some d => digitsValue base (base * n + d) rest
    | none => none

/-- A number: decimal, or hexadecimal after `0x`; at least one digit. -/
def parseNumber : List Char → Option Nat
  | [] => none
  | ['0', 'x'] => none
  | '0' :: 'x' :: digits => digitsValue 16 0 digits
  | digits => digitsValue 10 0 digits

/-- A text cut at its commas. -/
def splitCommas : List Char → List (List Char)
  | [] => [[]]
  | ch :: rest =>
    if ch = ',' then [] :: splitCommas rest
    else
      match splitCommas rest with
      | [] => [[ch]]
      | piece :: more => (ch :: piece) :: more

/-- The numbers of an operand list; nothing where one of them is no number. -/
def parseOperands (text : List Char) : Option (List Nat) :=
  if trimBlanks text = [] then some []
  else (splitCommas text).mapM fun piece => parseNumber (trimBlanks piece)

/-- The line a mnemonic and its operands make, in the operand order of R69. -/
def asmLineOf (mnemonic : List Char) (operands : List Nat) : Option AsmLine :=
  match operands with
  | [] =>
    if mnemonic = ['S', 'I', 'Z', 'E'] then some .size
    else if mnemonic = ['B', 'L', 'K', 'S', 'Z'] then some .blksz
    else if mnemonic = ['R', 'D', 'S', 'T', 'A', 'T'] then some .rdstat
    else none
  | [x] =>
    if mnemonic = ['R', 'E', 'S', 'E', 'T'] then some (.reset x)
    else if mnemonic = ['S', 'U', 'M', '8'] then some (.sum8 x)
    else none
  | [x, y] =>
    if mnemonic = ['B', 'U', 'I', 'L', 'D'] then some (.build x y)
    else if mnemonic = ['B', 'I', 'N', 'D'] then some (.bind x y)
    else if mnemonic = ['W', 'R', 'I', 'T', 'E'] then some (.write x y)
    else if mnemonic = ['T', 'R', 'E', 'A', 'D'] then some (.tread x y)
    else none
  | [x, y, z] => if mnemonic = ['U', 'P', 'D', 'A', 'T', 'E'] then some (.update x y z) else none
  | _ => none

/-- Read one line of assembler. -/
def parseLine (text : List Char) : Option AsmLine :=
  let body := trimBlanks (text.takeWhile (· ≠ ';'))
  let mnemonic := body.takeWhile fun ch => !isBlank ch
  (parseOperands (body.dropWhile fun ch => !isBlank ch)).bind (asmLineOf mnemonic)

/-- Assemble one line of text (R69). -/
def assembleText (text : List Char) : Option Word := (parseLine text).bind assemble

/-- The name of a command in the opcode map (R63). -/
def Instr.mnemonic : Instr → String
  | .build _ _ => "BUILD"
  | .bind _ _ => "BIND"
  | .write _ _ => "WRITE"
  | .reset _ => "RESET"
  | .sum8 _ => "SUM8"
  | .update _ _ _ => "UPDATE"
  | .tread _ _ => "TREAD"
  | .size => "SIZE"
  | .blksz => "BLKSZ"
  | .rdstat => "RDSTAT"

/-- One row of the match and mask table of R63: "a word `w` is the command when `w AND mask = match`". -/
structure OpcodeRow where
  mnemonic : String
  pattern : Word
  mask : Word
  deriving DecidableEq, Repr

/-- A word matches a row (R63). -/
def OpcodeRow.matchesWord (r : OpcodeRow) (w : Word) : Bool := w &&& r.mask == r.pattern

/-- The match and mask table of R63, row for row. -/
def opcodeTable : List OpcodeRow :=
  [ { mnemonic := "BUILD", pattern := 0x10000000, mask := 0xFF0FFF00 },
    { mnemonic := "BIND", pattern := 0x20000000, mask := 0xFF00FFFF },
    { mnemonic := "WRITE", pattern := 0x30000000, mask := 0xFFF0FF00 },
    { mnemonic := "RESET", pattern := 0x40000000, mask := 0xFFF0FFFF },
    { mnemonic := "SUM8", pattern := 0x50000000, mask := 0xFFF0FFFF },
    { mnemonic := "UPDATE", pattern := 0x60000000, mask := 0xFF0F0000 },
    { mnemonic := "TREAD", pattern := 0x70000000, mask := 0xFF0FFF00 },
    { mnemonic := "SIZE", pattern := 0x80000000, mask := 0xFFFFFFFF },
    { mnemonic := "BLKSZ", pattern := 0x90000000, mask := 0xFFFFFFFF },
    { mnemonic := "RDSTAT", pattern := 0xA0000000, mask := 0xFFFFFFFF } ]

/-- What the decoder reads from an instruction of `nbits` bits `w`, bit 0 the least significant bit of the command word;
the word goes to the decoder whole, as the port delivers it (R60). -/
def decodeTableWord (nbits w : Nat) : Option Instr :=
  match decode (BitVec.ofNat 32 (w % 2 ^ nbits)) with
  | .ok i => some i
  | .error _ => none

end Sys2Proof
end

