-- ==== Sys2Proof/Config.lean ====
section
/-! DEFINITION. What an implementation of the engine fixes (spec/00_scope.md R8, spec/10_state.md R31) and the one free
value the spec leaves open (spec/20_memory.md R46). -/

namespace Sys2Proof

/-- The parameters of R8. `NT - 1` and `ND - 1` are the hardwired 4-bit constants of R31, so every value of these two
fields is a legal configuration (`NT`, `ND` from 1 to 16); `NHOST` is 1 or more. -/
structure Config where
  /-- `NT - 1` (R31). -/
  ntLess1 : BitVec 4
  /-- `ND - 1` (R31). -/
  ndLess1 : BitVec 4
  /-- `NHOST - 1` (R8). -/
  nhostLess1 : Nat
  deriving DecidableEq, Repr

/-- `NT`: the number of table slots. -/
def Config.nt (k : Config) : Nat := k.ntLess1.toNat + 1

/-- `ND`: the number of digest contexts. -/
def Config.nd (k : Config) : Nat := k.ndLess1.toNat + 1

/-- `NHOST`: the number of hosts on the one command port. -/
def Config.nhost (k : Config) : Nat := k.nhostLess1 + 1

/-- The reference configuration of R8: `NT = 2`, `ND = 2`, `NHOST = 1`. -/
def Config.reference : Config := { ntLess1 := 1, ndLess1 := 1, nhostLess1 := 0 }

/-- FREE VALUE (log 5). Which of the inputs that wait at one moment reaches the port next: "in an order the model leaves
open" (R46). Applied to `State.turn`; nothing constrains it, so what is proved holds for every order. -/
opaque Config.arbiter : Nat → Nat

end Sys2Proof
end

