-- ==== Sys2Proof/Machine/State.lean ====
section
/-! DEFINITION. The state of the engine and of its command port, as plain data (spec/10_state.md), the reasons a step can
stop, and the state right after reset (spec/70_reset_and_hazards.md R150). -/

namespace Sys2Proof.Machine

/-- The five errors of R131. Each is an outcome of a command that goes on to a NEXT state (R136), not a `Fault`. -/
inductive ErrorCode where
  /-- 0x01: the word spells no command (R132). -/
  | illegal
  /-- 0x02: a used `T` is at or above `NT` or a used `C` at or above `ND` (R133). -/
  | badIndex
  /-- 0x03: the named slot has `TBUILT[t] = 0` (R134). -/
  | tableUnbuilt
  /-- 0x04: the named context has `BOUND[c] = 0` (R135). -/
  | ctxUnbound
  /-- 0x05: BUILD of a slot a bound context names (R81). -/
  | tableInUse
  deriving DecidableEq, Repr

/-- `STATUS` (R27), less its bits 6:3, which are hardwired 0 and so hold nothing. -/
structure Status where
  /-- Bit 7, `ERR`: sticky. -/
  err : Bool
  /-- Bits 2:0, `ECODE`: the code of the first failure. -/
  ecode : BitVec 3
  deriving DecidableEq, Repr

/-- One digest context (R20): `CRC[c]` (R23), `BINDT[c]` (R24), `BOUND[c]` (R25). -/
structure Context where
  crc : Byte
  bindt : Index
  bound : Bool
  deriving DecidableEq, Repr

/-- A change of the hardware reset line (R153). -/
inductive ResetChange where
  /-- Hardware reset begins: R150 takes effect, and reset is held. -/
  | asserted
  /-- Reset is no longer held. -/
  | released
  deriving DecidableEq, Repr

/-- Why a step can stop. -/
inductive Fault where
  /-- TableRead (R41) of entry `i` of slot `t` where no BUILD has written it: "a model treats every entry as having no
  value until BUILD writes it" (R21; 93_implementation_defined.md row 1: `fault`). Raised by UPDATE, TREAD and WRITE, and
  only in states no run reaches, since each checks `TBUILT` or rests on R26. SAFE: the model stops where the block would
  go on with some value (log 1). -/
  | tableEntryNoValue (t : Index) (i : Byte)
  deriving DecidableEq, Repr

/-- Why an instruction has no meaning here. -/
inductive Refusal where
  /-- The instruction named has no meaning in this model. Raised only by an arm of `exec`; no arm raises it now. SAFE. -/
  | notModelled (mnemonic : String)
  deriving DecidableEq, Repr

/-- The engine (the first five fields) and the outside of its command port (the rest). -/
structure State where
  /-- The hardwired `NT - 1` and `ND - 1` (R31) and the platform's `NHOST` (R8). No step changes it. -/
  config : Config
  /-- `TABLE` (R21): `(256 * t + i, TABLE[t][i])` in strictly rising order; an entry not listed has no value. -/
  table : List Host.Cell
  /-- `TBUILT` (R22); an engine has the first `NT` of these (log 2). -/
  tbuilt : Vector Bool 16
  /-- The digest contexts (R20); an engine has the first `ND` of these (log 2). -/
  contexts : Vector Context 16
  /-- `STATUS` (R27). -/
  status : Status
  /-- For each host, the command words it has still to send, in its order (R45, R46; log 3). -/
  hosts : List (List Word)
  /-- The changes of the reset line still to come (R153; log 4). -/
  resetChanges : List ResetChange
  /-- Hardware reset is held (R153; log 4). -/
  resetHeld : Bool
  /-- How many inputs have reached the port: the argument of the free value `Config.arbiter` (log 5). -/
  turn : Nat
  /-- The response words returned so far, in order (R66, R161; log 6). -/
  responses : List Word
  /-- The host each of those responses went to (log 6). -/
  served : List Nat
  deriving DecidableEq, Repr

/-- `STATUS` after hardware reset (R150). -/
def Status.afterReset : Status := { err := false, ecode := 0x0#3 }

/-- A context after hardware reset (R150): unbound, `CRC` 0x00, `BINDT` 0x0. -/
def Context.afterReset : Context := { crc := 0x00#8, bindt := 0x0#4, bound := false }

/-- An engine of configuration `k` right after hardware reset (R150, R151), with no command sent to it yet. -/
def State.resetWith (k : Config) : State :=
  { config := k
    table := []
    tbuilt := Vector.replicate 16 false
    contexts := Vector.replicate 16 Context.afterReset
    status := Status.afterReset
    hosts := List.replicate k.nhost []
    resetChanges := []
    resetHeld := false
    turn := 0
    responses := []
    served := [] }

/-- The machine right after reset, in the reference configuration of R8. -/
def State.reset : State := State.resetWith Config.reference

end Sys2Proof.Machine
end

