-- ==== Sys2Proof/Machine/Flags.lean ====
section
/-! DEFINITION. The error codes and the status register (spec/60_exceptions.md R131, R136; spec/10_state.md R27). The
engine has no flags or condition codes (R29): `STATUS.ERR` is its only status bit. -/

namespace Sys2Proof.Machine

/-- The code of an error in the response's `ST` field (R131). -/
def ErrorCode.code : ErrorCode → Byte
  | .illegal => 0x01#8
  | .badIndex => 0x02#8
  | .tableUnbuilt => 0x03#8
  | .ctxUnbound => 0x04#8
  | .tableInUse => 0x05#8

/-- The code as `STATUS.ECODE` holds it, in three bits (R27, R131). -/
def ErrorCode.ecode (e : ErrorCode) : BitVec 3 := e.code.setWidth 3

/-- What a failure does to `STATUS` (R136): the first one sets `ERR` and `ECODE`, later ones change nothing. -/
def Status.record (e : ErrorCode) (x : Status) : Status :=
  if x.err then x else { err := true, ecode := e.ecode }

/-- The 8-bit register `STATUS` (R27): `ERR` in bit 7, bits 6:3 hardwired 0, `ECODE` in bits 2:0. -/
def Status.word (x : Status) : Byte :=
  (BitVec.ofBool x.err).setWidth 8 <<< 7 ||| x.ecode.setWidth 8

end Sys2Proof.Machine
end

