-- ==== Sys2Proof/Machine/Ops.lean ====
section
/-! DEFINITION. The named operations over the engine's state: table entries (spec/20_memory.md R41, R42), contexts
(spec/10_state.md R23 to R25), the response of a command (spec/30_encoding.md R66), a failed command
(spec/60_exceptions.md R136) and hardware reset (spec/70_reset_and_hazards.md R150). There is no return from an error to
model: "there is no handler and no return instruction" (R138). -/

namespace Sys2Proof.Machine

/-! Memory: a list of cells with strictly rising addresses. A cell that is not listed has no value (log 1). -/

/-- The byte at an address, or no value. -/
def Memory.read (a : Nat) : List Host.Cell → Option Byte
  | [] => none
  | (k, x) :: rest => if a = k then some x else Memory.read a rest

/-- Write one byte, in its place in the order. -/
def Memory.write (a : Nat) (v : Byte) : List Host.Cell → List Host.Cell
  | [] => [(a, v)]
  | (k, x) :: rest =>
    if a < k then (a, v) :: (k, x) :: rest
    else if a = k then (a, v) :: rest
    else (k, x) :: Memory.write a v rest

/-- The canonical form: addresses strictly rising. Every listed entry has a value, and an unlisted one has none, so no
entry equals what an unlisted address reads as. -/
abbrev Memory.wf (m : List Host.Cell) : Prop := m.Pairwise (fun x y => x.1 < y.1)

/-- Where entry `i` of slot `t` stands: "256 bytes per slot" (R33). -/
def entryAddress (t : Index) (i : Byte) : Nat := 256 * t.toNat + i.toNat

/-- `TableRead(t, i)` (R41): the entry, or no value where BUILD has written none. No side effect. -/
def State.tableRead (t : Index) (i : Byte) (s : State) : Option Byte := Memory.read (entryAddress t i) s.table

/-- `TableWrite(t, i, v)` (R42), on the table storage. -/
def tableWrite (t : Index) (i : Byte) (v : Byte) (m : List Host.Cell) : List Host.Cell :=
  Memory.write (entryAddress t i) v m

/-- `TableWrite` for `i` in `0..n-1`, in order (R42, R80): the writes of BUILD one by one. -/
def tableWrites (t : Index) (entry : Byte → Byte) : Nat → List Host.Cell → List Host.Cell
  | 0, m => m
  | n + 1, m => tableWrite t (BitVec.ofNat 8 n) (entry (BitVec.ofNat 8 n)) (tableWrites t entry n m)

/-- All 256 writes of slot `t` at once: the cells below the slot, the slot's 256 cells, the cells above it. -/
def Memory.writeSlot (t : Index) (entry : Byte → Byte) (m : List Host.Cell) : List Host.Cell :=
  m.filter (fun cell => cell.1 < 256 * t.toNat)
    ++ (List.range 256).map (fun i => (256 * t.toNat + i, entry (BitVec.ofNat 8 i)))
    ++ m.filter (fun cell => 256 * t.toNat + 256 ≤ cell.1)

/-- Write all 256 entries of slot `t` "in one step, so no command ever sees a partly built table" (R42, R52). The order
of the writes inside it is not observable (R161). -/
def State.fillSlot (t : Index) (entry : Byte → Byte) (s : State) : State :=
  { s with table := Memory.writeSlot t entry s.table }

/-- `TBUILT[t]` (R22). -/
def State.isBuilt (t : Index) (s : State) : Bool := s.tbuilt[t.toNat]'t.isLt

/-- `TBUILT[t] <- 1` (R22). -/
def State.setBuilt (t : Index) (s : State) : State := { s with tbuilt := s.tbuilt.set t.toNat true t.isLt }

/-- Context `c` (R20). -/
def State.ctx (c : Index) (s : State) : Context := s.contexts[c.toNat]'c.isLt

/-- Write context `c`. -/
def State.setCtx (c : Index) (x : Context) (s : State) : State :=
  { s with contexts := s.contexts.set c.toNat x c.isLt }

/-- `CRC[c] <- v` (R23): `BINDT[c]` and `BOUND[c]` stay. -/
def State.setCrc (c : Index) (v : Byte) (s : State) : State := s.setCtx c { s.ctx c with crc := v }

/-- The response word of R66: `ST`, `CFG`, a reserved byte that is always 0x00, `DATA`. -/
def responseWord (st cfg data : Byte) : Word :=
  st.setWidth 32 <<< 24 ||| cfg.setWidth 32 <<< 16 ||| data.setWidth 32

/-- Return a response word to the host. -/
def State.reply (w : Word) (s : State) : State := { s with responses := s.responses ++ [w] }

/-- `respond(data)` (R66): status OK, `CFG` 0x00. -/
def State.respond (data : Byte) (s : State) : State := s.reply (responseWord 0x00#8 0x00#8 data)

/-- `Fail(code)` (R136), the engine's whole trap entry: `STATUS` records the first failure, the response carries the
code with `CFG` and `DATA` 0x00, and nothing else changes. -/
def State.fail (e : ErrorCode) (s : State) : State :=
  { s with status := s.status.record e }.reply (responseWord e.code 0x00#8 0x00#8)

/-- Hardware reset (R150): every piece of the engine's state takes its reset value, whatever it held. The configuration
is no reset state (R31), and what the hosts have sent and received is not the engine's. -/
def State.hardwareReset (s : State) : State :=
  { s with
    table := []
    tbuilt := Vector.replicate 16 false
    contexts := Vector.replicate 16 Context.afterReset
    status := Status.afterReset }

end Sys2Proof.Machine
end

