-- ==== Sys2Proof/Machine/Operands.lean ====
section
/-! DEFINITION. The checks a command makes of its operands before it changes any state (spec/60_exceptions.md R133 to
R135, spec/40_table_builder.md R81), and the kernel through which UPDATE and WRITE both go
(spec/41_checksum_update.md R89, R94). -/

namespace Sys2Proof.Machine

/-- `t < NT` (R133): the engine holds slot `t`. With `NT = 16` it always does. -/
def State.slotExists (t : Index) (s : State) : Bool := decide (t.toNat < s.config.nt)

/-- `c < ND` (R133): the engine holds context `c`. With `ND = 16` it always does. -/
def State.ctxExists (c : Index) (s : State) : Bool := decide (c.toNat < s.config.nd)

/-- `TableInUse(t)` (R81): "some context `c` in `0..ND-1` has `BOUND[c] = 1` and `BINDT[c] = t`". -/
def State.tableInUse (t : Index) (s : State) : Bool :=
  (List.range s.config.nd).any fun n =>
    (s.ctx (BitVec.ofNat 4 n)).bound && (s.ctx (BitVec.ofNat 4 n)).bindt == t

/-- `Step(tab, v, b) = tab[v XOR b]` (R89): XOR first, then look up. -/
def kernelStep (tab : Byte → Byte) (v b : Byte) : Byte := tab (v ^^^ b)

/-- `Fold(tab, v, data)` (R89): the bytes of `data` in order; the result is the last running value itself (R91). -/
def kernelFold (tab : Byte → Byte) : Byte → List Byte → Byte
  | v, [] => v
  | v, b :: data => kernelFold tab (kernelStep tab v b) data

/-- One step of the kernel through slot `t` as it stands (R89, R94): the entry `v XOR b`, where it has a value. -/
def State.foldByte (t : Index) (v b : Byte) (s : State) : Option Byte := s.tableRead t (v ^^^ b)

end Sys2Proof.Machine
end

