-- ==== Sys2Proof/Machine/Digest.lean ====
section
/-! DEFINITION. The digest commands BIND, WRITE, RESET, SUM8, SIZE and BLKSZ (spec/42_digest.md). -/

namespace Sys2Proof.Machine

/-- BIND (R100, R102): the context check before the slot check (R137). -/
def execBind (c t : Index) (s : State) : Host.Outcome State Fault Refusal :=
  if s.ctxExists c = false then .next (s.fail .badIndex)
  else if s.slotExists t = false then .next (s.fail .badIndex)
  else if s.isBuilt t = false then .next (s.fail .tableUnbuilt)
  else .next ((s.setCtx c { crc := 0x00#8, bindt := t, bound := true }).respond 0x00#8)

/-- WRITE (R103): one step of the kernel on `CRC[c]` through the bound slot; responds 0x01, one byte processed. -/
def execWrite (c : Index) (b : Byte) (s : State) : Host.Outcome State Fault Refusal :=
  if s.ctxExists c = false then .next (s.fail .badIndex)
  else if (s.ctx c).bound = false then .next (s.fail .ctxUnbound)
  else
    match s.foldByte (s.ctx c).bindt (s.ctx c).crc b with
    | some x => .next ((s.setCrc c x).respond 0x01#8)
    | none => .fault (.tableEntryNoValue (s.ctx c).bindt ((s.ctx c).crc ^^^ b))

/-- RESET (R105): "sets the current value back to 0; does not alter the bound table reference". -/
def execReset (c : Index) (s : State) : Host.Outcome State Fault Refusal :=
  if s.ctxExists c = false then .next (s.fail .badIndex)
  else if (s.ctx c).bound = false then .next (s.fail .ctxUnbound)
  else .next ((s.setCrc c 0x00#8).respond 0x00#8)

/-- SUM8 (R107). -/
def execSum8 (c : Index) (s : State) : Host.Outcome State Fault Refusal :=
  if s.ctxExists c = false then .next (s.fail .badIndex)
  else if (s.ctx c).bound = false then .next (s.fail .ctxUnbound)
  else .next (s.respond (s.ctx c).crc)

/-- SIZE (R110): "the fixed constant 1", in every state. -/
def execSize (s : State) : Host.Outcome State Fault Refusal := .next (s.respond 0x01#8)

/-- BLKSZ (R112): "the fixed constant 1", in every state. -/
def execBlksz (s : State) : Host.Outcome State Fault Refusal := .next (s.respond 0x01#8)

end Sys2Proof.Machine
end

