-- ==== Sys2Proof/Machine/StatusRead.lean ====
section
/-! DEFINITION. RDSTAT (spec/43_status.md R120). -/

namespace Sys2Proof.Machine

/-- The `CFG` field of RDSTAT's response (R66, R120): `ND - 1` in its high half, `NT - 1` in its low half. -/
def configByte (k : Config) : Byte := k.ndLess1.setWidth 8 <<< 4 ||| k.ntLess1.setWidth 8

/-- RDSTAT (R120): `STATUS` and the configuration constants, in every state; nothing is cleared. -/
def execRdstat (s : State) : Host.Outcome State Fault Refusal :=
  .next (s.reply (responseWord 0x00#8 (configByte s.config) s.status.word))

end Sys2Proof.Machine
end

