-- ==== Sys2Proof/Machine/TableBuilder.lean ====
section
/-! DEFINITION. BUILD and TREAD (spec/40_table_builder.md). -/

namespace Sys2Proof.Machine

/-- One round of R80: "if the high bit (0x80) of the register is set, shift the register left by 1 bit (result truncated
to 8 bits) and XOR with the polynomial; otherwise, just shift left". -/
def buildRound (poly r : Byte) : Byte :=
  if r &&& 0x80#8 ≠ 0 then (r <<< 1) ^^^ poly else r <<< 1

/-- The final register of R80 for a working register that starts at `r`, after `k` rounds. -/
def buildRounds (poly : Byte) : Nat → Byte → Byte
  | 0, r => r
  | k + 1, r => buildRounds poly k (buildRound poly r)

/-- Entry `i` of the table of `poly` (R80): eight rounds from `i`. -/
def tableEntry (poly i : Byte) : Byte := buildRounds poly 8 i

/-- BUILD (R80): an index check, the in-use check of R81, then all 256 entries and `TBUILT[t]` in one step. -/
def execBuild (t : Index) (poly : Byte) (s : State) : Host.Outcome State Fault Refusal :=
  if s.slotExists t = false then .next (s.fail .badIndex)
  else if s.tableInUse t = true then .next (s.fail .tableInUse)
  else .next (((s.fillSlot t (tableEntry poly)).setBuilt t).respond 0x00#8)

/-- TREAD (R84). -/
def execTread (t : Index) (i : Byte) (s : State) : Host.Outcome State Fault Refusal :=
  if s.slotExists t = false then .next (s.fail .badIndex)
  else if s.isBuilt t = false then .next (s.fail .tableUnbuilt)
  else
    match s.tableRead t i with
    | some x => .next (s.respond x)
    | none => .fault (.tableEntryNoValue t i)

end Sys2Proof.Machine
end

