-- ==== Sys2Proof/Machine/Update.lean ====
section
/-! DEFINITION. UPDATE (spec/41_checksum_update.md R90). -/

namespace Sys2Proof.Machine

/-- UPDATE (R90): one step of the kernel on a running value the caller holds. It touches no context. -/
def execUpdate (t : Index) (v b : Byte) (s : State) : Host.Outcome State Fault Refusal :=
  if s.slotExists t = false then .next (s.fail .badIndex)
  else if s.isBuilt t = false then .next (s.fail .tableUnbuilt)
  else
    match s.foldByte t v b with
    | some x => .next (s.respond x)
    | none => .fault (.tableEntryNoValue t (v ^^^ b))

end Sys2Proof.Machine
end

