-- ==== Sys2Proof/Machine/Dispatch.lean ====
section
/-! DEFINITION. One arm per command (spec/30_encoding.md R63). -/

namespace Sys2Proof.Machine

def exec (i : Instr) (s : State) : Host.Outcome State Fault Refusal :=
  match i with
  | .build t poly => Sys2Proof.Machine.execBuild t poly s
  | .bind c t => Sys2Proof.Machine.execBind c t s
  | .write c b => Sys2Proof.Machine.execWrite c b s
  | .reset c => Sys2Proof.Machine.execReset c s
  | .sum8 c => Sys2Proof.Machine.execSum8 c s
  | .update t v b => Sys2Proof.Machine.execUpdate t v b s
  | .tread t idx => Sys2Proof.Machine.execTread t idx s
  | .size => Sys2Proof.Machine.execSize s
  | .blksz => Sys2Proof.Machine.execBlksz s
  | .rdstat => Sys2Proof.Machine.execRdstat s

end Sys2Proof.Machine
end

