-- ==== Sys2Proof/Machine/Port.lean ====
section
/-! DEFINITION. The command port: what waits at it, which of it comes next, and what taking it does to what waits
(spec/20_memory.md R45, R46; spec/70_reset_and_hazards.md R153). -/

namespace Sys2Proof.Machine

/-- Where an input of the engine comes from: a host's command (R13) or the reset line (R153). -/
inductive Source where
  | host (h : Nat)
  | resetLine
  deriving DecidableEq, Repr

/-- An input that reaches the engine. -/
inductive Input where
  | command (h : Nat) (w : Word)
  | resetLine (change : ResetChange)
  deriving DecidableEq, Repr

/-- The hosts, counted from `h`, that have a command waiting. -/
def hostsWaiting : Nat → List (List Word) → List Source
  | _, [] => []
  | h, [] :: rest => hostsWaiting (h + 1) rest
  | h, (_ :: _) :: rest => Source.host h :: hostsWaiting (h + 1) rest

/-- Every source that has an input waiting: the hosts, and the reset line, whose events fall between commands (R153). -/
def State.waiting (s : State) : List Source :=
  hostsWaiting 0 s.hosts ++ (if s.resetChanges.isEmpty then [] else [Source.resetLine])

/-- The source whose input comes next, for an open choice (R46): any of those that wait, by some choice. Where one
source waits it comes next, whatever the choice. -/
def pickSource (choice : Nat) : List Source → Option Source
  | [] => none
  | [x] => some x
  | x :: y :: rest => (x :: y :: rest)[choice % (rest.length + 2)]?

/-- The first input of a source. -/
def State.firstInput (s : State) : Source → Option Input
  | .host h => match s.hosts[h]? with
    | some (w :: _) => some (.command h w)
    | _ => none
  | .resetLine => match s.resetChanges with
    | c :: _ => some (.resetLine c)
    | [] => none

/-- The input that comes next for an open choice, if any waits. -/
def State.nextInput (choice : Nat) (s : State) : Option Input :=
  match pickSource choice s.waiting with
  | some x => s.firstInput x
  | none => none

/-- A host's queue without its first word; the others as they stand. -/
def dropFirst : Nat → List (List Word) → List (List Word)
  | _, [] => []
  | 0, q :: rest => q.tail :: rest
  | h + 1, q :: rest => q :: dropFirst h rest

/-- The state once an input has been taken from its source. -/
def State.taken (s : State) : Input → State
  | .command h _ => { s with hosts := dropFirst h s.hosts, turn := s.turn + 1 }
  | .resetLine _ => { s with resetChanges := s.resetChanges.tail, turn := s.turn + 1 }

/-- The engine turns to a command of host `h`: the response it will give goes to that host. -/
def State.serve (h : Nat) (s : State) : State := { s with served := s.served ++ [h] }

/-- A word put first in host 0's queue, where it is the one input that waits and reset is not held. -/
def State.placeCommand (w : Word) (s : State) : State :=
  { s with
    hosts := match s.hosts with
      | [] => [[w]]
      | q :: rest => (w :: q) :: rest.map (fun _ => [])
    resetChanges := []
    resetHeld := false }

end Sys2Proof.Machine
end

