-- ==== Sys2Proof/Machine/Serve.lean ====
section
/-! DEFINITION. What the engine does with the input that comes next (spec/20_memory.md R45, spec/60_exceptions.md R132,
spec/70_reset_and_hazards.md R150, R153). -/

namespace Sys2Proof.Machine

/-- A command word the engine accepts: the command it spells is executed; "An illegal word is not executed" and fails
with ILLEGAL (R132), before any other check (R137). -/
def executeWord (w : Word) (s : State) : Host.Outcome State Fault Refusal :=
  match decode w with
  | .ok i => exec i s
  | .error _ => .next (s.fail .illegal)

/-- One input, taken and dealt with. A command sent while reset is held "is not executed and gets no response" (R153);
the reset line going up is hardware reset (R150). -/
def deliver (x : Input) (s : State) : Host.Outcome State Fault Refusal :=
  match x with
  | .command h w =>
    if s.resetHeld = true then .next (s.taken (.command h w))
    else executeWord w ((s.taken (.command h w)).serve h)
  | .resetLine .asserted => .next { (s.taken (.resetLine .asserted)).hardwareReset with resetHeld := true }
  | .resetLine .released => .next { s.taken (.resetLine .released) with resetHeld := false }

/-- One step for an open choice of what comes next. With nothing waiting the engine is idle and holds its state (R147,
R151). -/
def stepWith (choice : Nat) (s : State) : Host.Outcome State Fault Refusal :=
  match s.nextInput choice with
  | some x => deliver x s
  | none => .next s

end Sys2Proof.Machine
end

