-- ==== Sys2Proof/Machine/Step.lean ====
section
/-! DEFINITION. The step: one input of the engine, in the order the free arbitration value gives (spec/20_memory.md R45,
R46). The engine has no program counter and fetches nothing (R28, R53); its next command is the next word at its port. -/

namespace Sys2Proof.Machine

/-- One step: one whole command (R45), one reset event (R153), or an idle engine (R147). -/
def step (s : State) : Host.Outcome State Fault Refusal := stepWith (Config.arbiter s.turn) s

/-- `s` with the word of `nbits` bits `w` as the next command at the port (log 7). -/
def State.withFetchWord (s : State) (nbits w : Nat) : State := s.placeCommand (BitVec.ofNat 32 (w % 2 ^ nbits))

end Sys2Proof.Machine
end

