-- ==== Sys2Proof/Machine/Pseudo.lean ====
section
/-! DEFINITION. The pseudo-instructions of spec/30_encoding.md R70: host-level operations, each a sequence of commands the
host issues in order, with a result the host computes from their responses. "If any command of an expansion fails, the
pseudo-instruction has failed and its result is not defined": its result is then `none`, and the state is the one the
expansion leaves, with the failure in `STATUS` (log 8). -/

namespace Sys2Proof.Machine

/-- The `ST` field of a response (R66). -/
def responseST (w : Word) : Byte := w.extractLsb' 24 8

/-- The `CFG` field of a response (R66). -/
def responseCFG (w : Word) : Byte := w.extractLsb' 16 8

/-- Bits 15:8 of a response, "always 0x00" (R66). -/
def responseReserved (w : Word) : Byte := w.extractLsb' 8 8

/-- The `DATA` field of a response (R66). -/
def responseDATA (w : Word) : Byte := w.extractLsb' 0 8

/-- The command of this response succeeded (R66). -/
def responseOK (w : Word) : Bool := responseST w == 0x00#8

/-- Carry on from a next state; a stop stays what it is. -/
def andThen {α β : Type} (o : Host.Outcome α Fault Refusal) (k : α → Host.Outcome β Fault Refusal) :
    Host.Outcome β Fault Refusal :=
  match o with
  | .next a => k a
  | .fault r => .fault r
  | .refused r => .refused r

/-- The host issues one command and waits for its response (R45). -/
def issue (i : Instr) (s : State) : Host.Outcome (State × Word) Fault Refusal :=
  andThen (exec i s) fun s' => .next (s', s'.responses.getLastD 0)

/-- A sequence of commands, issued in order (R45). -/
def execAll : List Instr → State → Host.Outcome State Fault Refusal
  | [], s => .next s
  | i :: rest, s => andThen (exec i s) (execAll rest)

/-- `MKTABLE t, poly`: `BUILD t, poly`. -/
def mkTable (t : Index) (poly : Byte) (s : State) : Host.Outcome (State × Option Unit) Fault Refusal :=
  andThen (issue (.build t poly) s) fun p => .next (p.1, if responseOK p.2 then some () else none)

/-- `NEWDIGEST c, t`: `BIND c, t`. -/
def newDigest (c t : Index) (s : State) : Host.Outcome (State × Option Unit) Fault Refusal :=
  andThen (issue (.bind c t) s) fun p => .next (p.1, if responseOK p.2 then some () else none)

/-- `WRITEN c, data`: one WRITE per byte, in order; the count is "the sum of the responses' `DATA`" (R104). -/
def writeN (c : Index) : List Byte → State → Host.Outcome (State × Option Nat) Fault Refusal
  | [], s => .next (s, some 0)
  | b :: data, s =>
    andThen (issue (.write c b) s) fun p =>
      andThen (writeN c data p.1) fun q =>
        .next (q.1, if responseOK p.2 then q.2.map ((responseDATA p.2).toNat + ·) else none)

/-- `UPDATESEQ t, v, data`: one UPDATE per byte, each response's `DATA` fed back as the next running value. -/
def updateSeq (t : Index) : Byte → List Byte → State → Host.Outcome (State × Option Byte) Fault Refusal
  | v, [], s => .next (s, some v)
  | v, b :: data, s =>
    andThen (issue (.update t v b) s) fun p =>
      andThen (updateSeq t (responseDATA p.2) data p.1) fun q =>
        .next (q.1, if responseOK p.2 then q.2 else none)

/-- `CHECKSUM t, data`: UPDATESEQ from 0x00 (R92). -/
def checksum (t : Index) (data : List Byte) (s : State) : Host.Outcome (State × Option Byte) Fault Refusal :=
  updateSeq t 0x00#8 data s

/-- `SUMAPPEND c, prior`: SUM8, and its `DATA` after the last byte of `prior` (R114). -/
def sumAppend (c : Index) (prior : List Byte) (s : State) : Host.Outcome (State × Option (List Byte)) Fault Refusal :=
  andThen (issue (.sum8 c) s) fun p =>
    .next (p.1, if responseOK p.2 then some (prior ++ [responseDATA p.2]) else none)

end Sys2Proof.Machine
end

