-- ==== Sys2Proof/Safety.lean ====
section
/-! DEFINITION. What claims are said in: which error a command reports (spec/60_exceptions.md R137), when a state is
faulted (R139), when a response has the form of spec/30_encoding.md R66, and the invariant of the machine
(spec/10_state.md R26, R27). -/

namespace Sys2Proof.Machine

/-- "a state with `STATUS.ERR = 1` is a faulted state" (R139). -/
def State.faulted (s : State) : Prop := s.status.err = true

/-- Two states hold the same engine state, the whole of R20. -/
structure State.sameEngine (s t : State) : Prop where
  table : s.table = t.table
  tbuilt : s.tbuilt = t.tbuilt
  contexts : s.contexts = t.contexts
  status : s.status = t.status

/-- What a claim says of a command that succeeds with result `d` and changes no state: its response is `ST` 0x00, `CFG`
0x00, `DATA` = `d` (R66), added to the responses so far. -/
def State.afterResponse (s : State) (d : Byte) : State := { s with responses := s.responses ++ [d.setWidth 32] }

/-- What a claim says of a command that fails with error code `code` (R136): `STATUS` takes the first failure and keeps
it, the response is `ST` = `code` with `CFG` and `DATA` 0x00, and nothing else changes. -/
def State.afterFailure (s : State) (code : Nat) : State :=
  { s with
    status := if s.status.err then s.status else { err := true, ecode := BitVec.ofNat 3 code }
    responses := s.responses ++ [BitVec.ofNat 32 (code * 2 ^ 24)] }

/-! The operands that the checks of R133 to R135 and R81 look at, by command (the column "commands that can raise it" of
R131). -/

/-- The `C` field, where the command uses it (R63). -/
def usedC : Instr → Option Index
  | .bind c _ | .write c _ | .reset c | .sum8 c => some c
  | .build _ _ | .update _ _ _ | .tread _ _ | .size | .blksz | .rdstat => none

/-- The `T` field, where the command uses it (R63). -/
def usedT : Instr → Option Index
  | .build t _ | .bind _ t | .update t _ _ | .tread t _ => some t
  | .write _ _ | .reset _ | .sum8 _ | .size | .blksz | .rdstat => none

/-- The context that must be bound (R135: WRITE, RESET, SUM8). -/
def needsBound : Instr → Option Index
  | .write c _ | .reset c | .sum8 c => some c
  | .build _ _ | .bind _ _ | .update _ _ _ | .tread _ _ | .size | .blksz | .rdstat => none

/-- The slot that must be built (R134: BIND, UPDATE, TREAD). -/
def needsBuilt : Instr → Option Index
  | .bind _ t | .update t _ _ | .tread t _ => some t
  | .build _ _ | .write _ _ | .reset _ | .sum8 _ | .size | .blksz | .rdstat => none

/-- The slot that must not be in use (R81: BUILD). -/
def needsFree : Instr → Option Index
  | .build t _ => some t
  | .bind _ _ | .write _ _ | .reset _ | .sum8 _ | .update _ _ _ | .tread _ _ | .size | .blksz | .rdstat => none

/-- The error a decoded command reports: "a command's checks are made in this order, and the first that fails gives the
error" (R137, from its second check on; the first is decoding). -/
def State.firstError (s : State) (i : Instr) : Option ErrorCode :=
  if ∃ c ∈ usedC i, s.config.nd ≤ c.toNat then some .badIndex
  else if ∃ t ∈ usedT i, s.config.nt ≤ t.toNat then some .badIndex
  else if ∃ c ∈ needsBound i, (s.ctx c).bound = false then some .ctxUnbound
  else if ∃ t ∈ needsBuilt i, s.isBuilt t = false then some .tableUnbuilt
  else if ∃ t ∈ needsFree i, s.tableInUse t = true then some .tableInUse
  else none

/-- A sequence of command words given to the engine one after the other (R45). -/
def executeWords : List Word → State → Host.Outcome State Fault Refusal
  | [], s => .next s
  | w :: rest, s => andThen (executeWord w s) (executeWords rest)

/-- The form of a response word (R66, R131): the reserved byte is 0x00, `ST` is a code that exists, and a failure's
`CFG` and `DATA` are 0x00. -/
def responseWellFormed (w : Word) : Prop :=
  responseReserved w = 0x00#8 ∧ (responseST w).toNat ≤ 5 ∧
    (responseST w ≠ 0x00#8 → responseCFG w = 0x00#8 ∧ responseDATA w = 0x00#8)

/-- R26: "for every context `c`, `BOUND[c] = 1` implies `BINDT[c] < NT` and `TBUILT[BINDT[c]] = 1`". -/
def State.boundContextsNameBuiltSlots (s : State) : Prop :=
  ∀ c : Index, (s.ctx c).bound = true →
    (s.ctx c).bindt.toNat < s.config.nt ∧ s.isBuilt (s.ctx c).bindt = true

/-- The invariant of the machine: true right after reset, and kept by every step. -/
structure State.Inv (s : State) : Prop where
  /-- The table storage is in its canonical form. -/
  tableWf : Memory.wf s.table
  /-- It holds entries of the slots that exist and of no others (R33). -/
  tableInRange : ∀ cell ∈ s.table, cell.1 < 256 * s.config.nt
  /-- A built slot holds the whole table of some polynomial (R80, R85). -/
  builtTable : ∀ t, s.isBuilt t = true → ∃ poly, ∀ i, s.tableRead t i = some (tableEntry poly i)
  /-- An unbuilt slot's entries have no value (R21). -/
  unbuiltTable : ∀ t, s.isBuilt t = false → ∀ i, s.tableRead t i = none
  /-- Only a slot that exists is built (R22). -/
  builtExists : ∀ t, s.isBuilt t = true → t.toNat < s.config.nt
  /-- Only a context that exists is bound (R25). -/
  boundExists : ∀ c, (s.ctx c).bound = true → c.toNat < s.config.nd
  /-- R26. -/
  boundBuilt : s.boundContextsNameBuiltSlots
  /-- An unbound context still holds its reset values (R23, R24, R25). -/
  unboundReset : ∀ c, (s.ctx c).bound = false → s.ctx c = Context.afterReset
  /-- "0x0 while `ERR` is 0", and the code of a failure, 0x1 to 0x5, once it is 1 (R27). -/
  statusLegal : (s.status.err = false → s.status.ecode = 0x0#3) ∧
    (s.status.err = true → 1 ≤ s.status.ecode.toNat ∧ s.status.ecode.toNat ≤ 5)
  /-- One queue for each host (R8). -/
  hostQueues : s.hosts.length = s.config.nhost
  /-- Every response has the form of R66. -/
  responsesWf : ∀ w ∈ s.responses, responseWellFormed w
  /-- Each response went to one host. -/
  servedEach : s.served.length = s.responses.length
  /-- While reset is held the engine holds its reset values (R150, R153). -/
  heldReset : s.resetHeld = true → s.sameEngine s.hardwareReset

end Sys2Proof.Machine
end

