-- ==== Sys2Proof/Certificates/Slice0/Obligations.lean ====
section
/-! DEFINITION. The statements about the CRC-8 engine, from the numbered rules of spec/. -/

open Sys2Proof Sys2Proof.Machine

/-! Encoding. -/

/-- Every command survives encoding and decoding: no operand bit is lost (R61 to R64). -/
def Obligations.DecodeOfEncode : Prop := ∀ i : Instr, decode (encode i) = .ok i

/-- A word that decodes is the word of its command: decoding reads every bit (R61 to R64). -/
def Obligations.EncodeOfDecode : Prop := ∀ (w : Word) (i : Instr), decode w = .ok i → encode i = w

/-- R71. -/
def Obligations.DecodeMatchesExactlyOneRow : Prop :=
  ∀ w : Word,
    (∃ r ∈ opcodeTable, r.matchesWord w = true ∧ (∀ r' ∈ opcodeTable, r'.matchesWord w = true → r' = r) ∧
      ∃ i, decode w = .ok i ∧ i.mnemonic = r.mnemonic) ∨
    ((∀ r ∈ opcodeTable, r.matchesWord w = false) ∧ ∃ e, decode w = .error e)

/-- R132: which words are illegal, field by field, and that an illegal word is not executed. -/
def Obligations.IllegalWordsAreNotExecuted : Prop :=
  ∀ (w : Word) (s : State),
    ((∃ e, decode w = .error e) ↔
      (w.extractLsb' 28 4 = 0x0#4 ∨ 0xB#4 ≤ w.extractLsb' 28 4 ∨ w.extractLsb' 24 4 ≠ 0#4 ∨
        (w.extractLsb' 28 4 = 0x1#4 ∧ (w.extractLsb' 16 4 ≠ 0#4 ∨ w.extractLsb' 8 8 ≠ 0#8)) ∨
        (w.extractLsb' 28 4 = 0x2#4 ∧ (w.extractLsb' 8 8 ≠ 0#8 ∨ w.extractLsb' 0 8 ≠ 0#8)) ∨
        (w.extractLsb' 28 4 = 0x3#4 ∧ (w.extractLsb' 20 4 ≠ 0#4 ∨ w.extractLsb' 8 8 ≠ 0#8)) ∨
        (w.extractLsb' 28 4 = 0x4#4 ∧
          (w.extractLsb' 20 4 ≠ 0#4 ∨ w.extractLsb' 8 8 ≠ 0#8 ∨ w.extractLsb' 0 8 ≠ 0#8)) ∨
        (w.extractLsb' 28 4 = 0x5#4 ∧
          (w.extractLsb' 20 4 ≠ 0#4 ∨ w.extractLsb' 8 8 ≠ 0#8 ∨ w.extractLsb' 0 8 ≠ 0#8)) ∨
        (w.extractLsb' 28 4 = 0x6#4 ∧ w.extractLsb' 16 4 ≠ 0#4) ∨
        (w.extractLsb' 28 4 = 0x7#4 ∧ (w.extractLsb' 16 4 ≠ 0#4 ∨ w.extractLsb' 8 8 ≠ 0#8)) ∨
        (w.extractLsb' 28 4 = 0x8#4 ∧ w.extractLsb' 0 28 ≠ 0#28) ∨
        (w.extractLsb' 28 4 = 0x9#4 ∧ w.extractLsb' 0 28 ≠ 0#28) ∨
        (w.extractLsb' 28 4 = 0xA#4 ∧ w.extractLsb' 0 28 ≠ 0#28))) ∧
    ((∃ e, decode w = .error e) → executeWord w s = .next (s.afterFailure 1))

/-- Words written out in spec/30_encoding.md R69 and spec/95_test_vectors.md, one of each command, and illegal ones. -/
def Obligations.SampleWordsDecode : Prop :=
  decode 0x10000007#32 = .ok (.build 0 0x07#8) ∧ decode 0x20010000#32 = .ok (.bind 1 0) ∧
  decode 0x30010031#32 = .ok (.write 1 0x31#8) ∧ decode 0x40010000#32 = .ok (.reset 1) ∧
  decode 0x50010000#32 = .ok (.sum8 1) ∧ decode 0x6010F400#32 = .ok (.update 1 0xF4#8 0x00#8) ∧
  decode 0x70000080#32 = .ok (.tread 0 0x80#8) ∧ decode 0x80000000#32 = .ok .size ∧
  decode 0x90000000#32 = .ok .blksz ∧ decode 0xA0000000#32 = .ok .rdstat ∧
  (∃ e, decode 0x00000000#32 = .error e) ∧ (∃ e, decode 0x10010007#32 = .error e) ∧
  (∃ e, decode 0xB0000000#32 = .error e)

/-- The assembler table of R69: the word of each line by its formula, and the operands an assembler refuses. -/
def Obligations.AssemblerWords : Prop :=
  ∀ t c p q : Nat,
    assemble (.build t p) =
      (if t ≤ 15 ∧ p ≤ 255 then some (BitVec.ofNat 32 (0x10000000 ||| t <<< 20 ||| p)) else none) ∧
    assemble (.bind c t) =
      (if c ≤ 15 ∧ t ≤ 15 then some (BitVec.ofNat 32 (0x20000000 ||| t <<< 20 ||| c <<< 16)) else none) ∧
    assemble (.write c p) =
      (if c ≤ 15 ∧ p ≤ 255 then some (BitVec.ofNat 32 (0x30000000 ||| c <<< 16 ||| p)) else none) ∧
    assemble (.reset c) = (if c ≤ 15 then some (BitVec.ofNat 32 (0x40000000 ||| c <<< 16)) else none) ∧
    assemble (.sum8 c) = (if c ≤ 15 then some (BitVec.ofNat 32 (0x50000000 ||| c <<< 16)) else none) ∧
    assemble (.update t q p) =
      (if t ≤ 15 ∧ q ≤ 255 ∧ p ≤ 255 then some (BitVec.ofNat 32 (0x60000000 ||| t <<< 20 ||| q <<< 8 ||| p)) else none) ∧
    assemble (.tread t p) =
      (if t ≤ 15 ∧ p ≤ 255 then some (BitVec.ofNat 32 (0x70000000 ||| t <<< 20 ||| p)) else none) ∧
    assemble .size = some 0x80000000#32 ∧ assemble .blksz = some 0x90000000#32 ∧ assemble .rdstat = some 0xA0000000#32

/-! The step and the port. -/

/-- A command word that comes next at the port, with reset not held, is decoded and executed: the step is `exec` of it on
the state in which the word has left its host's queue and the response is owed to that host; an illegal word fails with
ILLEGAL there. -/
def Obligations.StepRunsDecodedCommand : Prop :=
  ∀ (s : State) (h : Nat) (w : Word),
    s.nextInput (Config.arbiter s.turn) = some (.command h w) → s.resetHeld = false →
      (∀ i, decode w = .ok i →
        step s = exec i { s with hosts := dropFirst h s.hosts, turn := s.turn + 1, served := s.served ++ [h] }) ∧
      (∀ e, decode w = .error e →
        step s = .next (State.afterFailure
          { s with hosts := dropFirst h s.hosts, turn := s.turn + 1, served := s.served ++ [h] } 1))

/-- The model's own placing of a word (log 7): a word placed at the port is the one the very next step executes, in every
state and for every free arbitration value. -/
def Obligations.PlacedWordRunsNext : Prop :=
  ∀ (s : State) (w : Word) (i : Instr), decode w = .ok i →
    step (s.withFetchWord 32 w.toNat) =
      exec i { s with
        hosts := (s.hosts.headD []) :: s.hosts.tail.map (fun _ => [])
        resetChanges := []
        resetHeld := false
        turn := s.turn + 1
        served := s.served ++ [0] }

/-- R147: with nothing at the port the engine is idle and every piece of state stays as it is. -/
def Obligations.IdleEngineHoldsState : Prop :=
  ∀ s : State, (∀ q ∈ s.hosts, q = []) → s.resetChanges = [] → step s = .next s

/-- R45 and R46 at one step: what comes next is the first word of some host's queue, taking it leaves every other queue
alone, and any host that waits can be the one. R153: a change of the reset line is an event between commands, so the
line's next change can come next too, and nothing comes only where neither a host nor a change waits. The queues (log 3)
and the reset line as a list of changes (log 4) are the model's own form. -/
def Obligations.EveryHostOrderAdmitted : Prop :=
  ∀ s : State,
    (∀ choice h w, s.nextInput choice = some (.command h w) →
      ∃ rest, s.hosts[h]? = some (w :: rest) ∧ (s.taken (.command h w)).hosts[h]? = some rest ∧
        ∀ k, k ≠ h → (s.taken (.command h w)).hosts[k]? = s.hosts[k]?) ∧
    (∀ choice x, s.nextInput choice = some (.resetLine x) →
      ∃ rest, s.resetChanges = x :: rest ∧ (s.taken (.resetLine x)).resetChanges = rest) ∧
    (∀ h w rest, s.hosts[h]? = some (w :: rest) → ∃ choice, s.nextInput choice = some (.command h w)) ∧
    (∀ x rest, s.resetChanges = x :: rest → ∃ choice, s.nextInput choice = some (.resetLine x)) ∧
    (∀ choice, s.nextInput choice = none ↔ (∀ q ∈ s.hosts, q = []) ∧ s.resetChanges = [])

/-- R46 over a run (the hosts' queues are log 3, the order log 5): the engine's state and responses are those of some interleaving of the hosts' command sequences, each
host's commands in its own order, whatever the free arbitration value. -/
def Obligations.RunIsSomeInterleaving : Prop :=
  ∀ (n : Nat) (s t : State), s.resetChanges = [] → s.resetHeld = false →
    Host.Core.run Sys2Proof.core n s = .next t →
      ∃ log : List (Nat × Word), t.served = s.served ++ log.map Prod.fst ∧
        (∀ h : Nat, (log.filter fun p => p.1 == h).map Prod.snd ++ (t.hosts[h]?).getD [] = (s.hosts[h]?).getD []) ∧
        ∃ u, executeWords (log.map Prod.snd) s = .next u ∧ t.sameEngine u ∧ t.responses = u.responses

/-- R45 for one host: a sequence of commands sent to the port (that host's queue, log 3) is executed command by command,
in order, each complete before the next. -/
def Obligations.OneHostCommandsRunInOrder : Prop :=
  ∀ (s u : State) (cmds : List Instr), s.hosts = [cmds.map encode] → s.resetChanges = [] → s.resetHeld = false →
    execAll cmds s = .next u →
      ∃ t, Host.Core.run Sys2Proof.core cmds.length s = .next t ∧ t.sameEngine u ∧ t.responses = u.responses ∧
        t.hosts = [[]]

/-! Reset. -/

/-- R150: what hardware reset leaves, whatever the state before; no slot can be read. The reset event is a change of the
reset line that comes next (R153, log 4). -/
def Obligations.HardwareResetValues : Prop :=
  ∀ s : State, s.nextInput (Config.arbiter s.turn) = some (.resetLine .asserted) →
    ∃ u, step s = .next u ∧ (∀ t, u.isBuilt t = false) ∧
      (∀ c, (u.ctx c).crc = 0x00#8 ∧ (u.ctx c).bindt = 0x0#4 ∧ (u.ctx c).bound = false) ∧
      u.status.err = false ∧ u.status.ecode = 0x0#3 ∧ u.status.word = 0x00#8 ∧ u.config = s.config ∧
      (∀ t i, t.toNat < u.config.nt → exec (.tread t i) u = .next (u.afterFailure 3))

/-- The machine right after reset, in every configuration: the values of R150, no table entry with a value (R21, log 1),
and, of the model's own fields (logs 4 and 6), no response yet and reset not held. -/
def Obligations.MachineStartsAtResetValues : Prop :=
  (∀ k : Config,
    (∀ t i, (State.resetWith k).tableRead t i = none) ∧ (∀ t, (State.resetWith k).isBuilt t = false) ∧
    (∀ c, ((State.resetWith k).ctx c).crc = 0x00#8 ∧ ((State.resetWith k).ctx c).bindt = 0x0#4 ∧
      ((State.resetWith k).ctx c).bound = false) ∧
    (State.resetWith k).status.word = 0x00#8 ∧ (State.resetWith k).config = k ∧ (State.resetWith k).responses = [] ∧
    (State.resetWith k).resetHeld = false) ∧
  State.reset.config.nt = 2 ∧ State.reset.config.nd = 2 ∧ State.reset.config.nhost = 1

/-- R153: a command sent while reset is held is not executed and gets no response. The model's reset line (log 4): reset
that is released leaves the engine's state as it is. -/
def Obligations.CommandDuringResetIsDropped : Prop :=
  ∀ s : State,
    (∀ h w, s.nextInput (Config.arbiter s.turn) = some (.command h w) → s.resetHeld = true →
      step s = .next { s with hosts := dropFirst h s.hosts, turn := s.turn + 1 }) ∧
    (s.nextInput (Config.arbiter s.turn) = some (.resetLine .released) →
      step s = .next { s with resetChanges := s.resetChanges.tail, turn := s.turn + 1, resetHeld := false })

/-- R151: straight after reset SIZE, BLKSZ and RDSTAT succeed, and every command that needs a table or a digest fails. -/
def Obligations.FreshEngineNeedsBoot : Prop :=
  ∀ (k : Config) (t c : Index) (v b : Byte),
    exec .size (State.resetWith k) = .next ((State.resetWith k).afterResponse 0x01#8) ∧
    exec .blksz (State.resetWith k) = .next ((State.resetWith k).afterResponse 0x01#8) ∧
    (∃ r, exec .rdstat (State.resetWith k) = .next { State.resetWith k with responses := [r] } ∧ responseST r = 0x00#8 ∧
      responseDATA r = 0x00#8) ∧
    (t.toNat < k.nt → exec (.update t v b) (State.resetWith k) = .next ((State.resetWith k).afterFailure 3)) ∧
    (t.toNat < k.nt → exec (.tread t b) (State.resetWith k) = .next ((State.resetWith k).afterFailure 3)) ∧
    (c.toNat < k.nd → t.toNat < k.nt →
      exec (.bind c t) (State.resetWith k) = .next ((State.resetWith k).afterFailure 3)) ∧
    (c.toNat < k.nd → exec (.write c b) (State.resetWith k) = .next ((State.resetWith k).afterFailure 4)) ∧
    (c.toNat < k.nd → exec (.reset c) (State.resetWith k) = .next ((State.resetWith k).afterFailure 4)) ∧
    (c.toNat < k.nd → exec (.sum8 c) (State.resetWith k) = .next ((State.resetWith k).afterFailure 4))

/-! The table builder. -/

/-- R80: BUILD, with its encoding, its errors, its eight rounds an entry and its frame. -/
def Obligations.BuildRule : Prop :=
  ∀ (t : Index) (poly : Byte) (s : State),
    (∀ w : Word, w.extractLsb' 28 4 = 0x1#4 → executeWord w s =
      if w &&& 0xFF0FFF00#32 = 0x10000000#32 then exec (.build (w.extractLsb' 20 4) (w.extractLsb' 0 8)) s
      else .next (s.afterFailure 1)) ∧
    (s.config.nt ≤ t.toNat → exec (.build t poly) s = .next (s.afterFailure 2)) ∧
    (t.toNat < s.config.nt →
      (∃ c : Index, c.toNat < s.config.nd ∧ (s.ctx c).bound = true ∧ (s.ctx c).bindt = t) →
      exec (.build t poly) s = .next (s.afterFailure 5)) ∧
    (t.toNat < s.config.nt →
      (¬ ∃ c : Index, c.toNat < s.config.nd ∧ (s.ctx c).bound = true ∧ (s.ctx c).bindt = t) →
      ∃ u, exec (.build t poly) s = .next u ∧
        (∀ i, u.tableRead t i =
          some ((fun r : Byte => if r.getLsbD 7 then (r <<< 1) ^^^ poly else r <<< 1)^[8] i)) ∧
        u.isBuilt t = true ∧
        (∀ a, a < 256 * t.toNat ∨ 256 * t.toNat + 256 ≤ a → Memory.read a u.table = Memory.read a s.table) ∧
        (∀ t', t' ≠ t → u.isBuilt t' = s.isBuilt t') ∧
        u = { s with table := u.table, tbuilt := u.tbuilt, responses := s.responses ++ [0x00000000#32] })

/-- R82: the five properties of a built table; the fourth reads entries as polynomials over GF(2). -/
def Obligations.BuiltTableAlgebra : Prop :=
  ∀ (t : Index) (P : Byte) (s : State), t.toNat < s.config.nt → s.tableInUse t = false →
    ∃ (u : State) (tab : Byte → Byte), exec (.build t P) s = .next u ∧ (∀ i, u.tableRead t i = some (tab i)) ∧
      tab 0x00#8 = 0x00#8 ∧ tab 0x01#8 = P ∧ (∀ a b : Byte, tab (a ^^^ b) = tab a ^^^ tab b) ∧
      (let asPoly : Byte → Polynomial (ZMod 2) := fun x =>
          ∑ k ∈ Finset.range 8, if x.getLsbD k then Polynomial.X ^ k else 0
        ∀ i : Byte, (asPoly i * Polynomial.X ^ 8) %ₘ (Polynomial.X ^ 8 + asPoly P) = asPoly (tab i)) ∧
      (P = 0x00#8 → ∀ i, tab i = 0x00#8)

/-- R83: BUILD of a slot that is built and free replaces its table, and every TREAD and UPDATE after it reads the new one,
whatever commands come between, as long as none of them is a BUILD of that slot. -/
def Obligations.RebuildReplacesTable : Prop :=
  ∀ (t : Index) (poly : Byte) (s : State), t.toNat < s.config.nt → s.isBuilt t = true → s.tableInUse t = false →
    ∃ u, exec (.build t poly) s = .next u ∧ u.isBuilt t = true ∧
      (∀ i, u.tableRead t i = some (tableEntry poly i)) ∧
      ∀ (between : List Instr) (v : State), (∀ p, Instr.build t p ∉ between) → execAll between u = .next v →
        (∀ i, exec (.tread t i) v = .next (v.afterResponse (tableEntry poly i))) ∧
        (∀ x b, exec (.update t x b) v = .next (v.afterResponse (tableEntry poly (x ^^^ b))))

/-- R85: the table after a successful BUILD depends on the polynomial alone. -/
def Obligations.BuildDependsOnPolynomialOnly : Prop :=
  ∀ (t t' : Index) (poly : Byte) (s s' : State), t.toNat < s.config.nt → s.tableInUse t = false →
    t'.toNat < s'.config.nt → s'.tableInUse t' = false →
      ∃ u u', exec (.build t poly) s = .next u ∧ exec (.build t' poly) s' = .next u' ∧
        ∀ i, u.tableRead t i = u'.tableRead t' i ∧ (u.tableRead t i).isSome = true

/-- R42, R52: the one-step write of a slot is the 256 TableWrites of BUILD, in order. -/
def Obligations.SlotWriteIsItsTableWrites : Prop :=
  ∀ (t : Index) (entry : Byte → Byte) (m : List Host.Cell), Memory.wf m →
    Memory.writeSlot t entry m = tableWrites t entry 256 m

/-- R84: TREAD, with its encoding and errors; it changes nothing but adds its response. -/
def Obligations.TreadRule : Prop :=
  ∀ (t : Index) (i : Byte) (s : State),
    (∀ w : Word, w.extractLsb' 28 4 = 0x7#4 → executeWord w s =
      if w &&& 0xFF0FFF00#32 = 0x70000000#32 then exec (.tread (w.extractLsb' 20 4) (w.extractLsb' 0 8)) s
      else .next (s.afterFailure 1)) ∧
    (s.config.nt ≤ t.toNat → exec (.tread t i) s = .next (s.afterFailure 2)) ∧
    (t.toNat < s.config.nt → s.isBuilt t = false → exec (.tread t i) s = .next (s.afterFailure 3)) ∧
    (∀ x, t.toNat < s.config.nt → s.isBuilt t = true → s.tableRead t i = some x →
      exec (.tread t i) s = .next (s.afterResponse x)) ∧
    (s.Inv → t.toNat < s.config.nt → s.isBuilt t = true →
      ∃ poly, s.tableRead t i = some (tableEntry poly i) ∧ s.tableRead t 0x00#8 = some 0x00#8 ∧
        s.tableRead t 0x01#8 = some poly)

/-! The update kernel. -/

/-- R90: UPDATE, with its encoding and errors: a pure function of the table, the running value and the byte; and UPDATESEQ
(R70), which folds a sequence through it. -/
def Obligations.UpdateRule : Prop :=
  ∀ (t : Index) (v b : Byte) (s : State),
    (∀ w : Word, w.extractLsb' 28 4 = 0x6#4 → executeWord w s =
      if w &&& 0xFF0F0000#32 = 0x60000000#32 then
        exec (.update (w.extractLsb' 20 4) (w.extractLsb' 8 8) (w.extractLsb' 0 8)) s
      else .next (s.afterFailure 1)) ∧
    (s.config.nt ≤ t.toNat → exec (.update t v b) s = .next (s.afterFailure 2)) ∧
    (t.toNat < s.config.nt → s.isBuilt t = false → exec (.update t v b) s = .next (s.afterFailure 3)) ∧
    (∀ x, t.toNat < s.config.nt → s.isBuilt t = true → s.tableRead t (v ^^^ b) = some x →
      exec (.update t v b) s = .next (s.afterResponse x)) ∧
    (s.Inv → t.toNat < s.config.nt → s.isBuilt t = true →
      ∃ poly, s.tableRead t (v ^^^ b) = some (tableEntry poly (v ^^^ b)) ∧ s.tableRead t 0x00#8 = some 0x00#8) ∧
    (∀ (data : List Byte) (tab : Byte → Byte), t.toNat < s.config.nt → s.isBuilt t = true →
      (∀ i, s.tableRead t i = some (tab i)) →
        ∃ u, updateSeq t v data s = .next (u, some (kernelFold tab v data)) ∧ u.sameEngine s)

/-- R93: the laws of the kernel's fold. -/
def Obligations.FoldLaws : Prop :=
  (∀ (tab : Byte → Byte) (v : Byte), kernelFold tab v [] = v) ∧
  (∀ (tab : Byte → Byte) (v : Byte) (d1 d2 : List Byte),
    kernelFold tab v (d1 ++ d2) = kernelFold tab (kernelFold tab v d1) d2) ∧
  (∀ (tab tab' : Byte → Byte) (v : Byte) (d : List Byte), (∀ i, tab i = tab' i) →
    kernelFold tab v d = kernelFold tab' v d) ∧
  (∀ (poly v : Byte) (d : List Byte),
    kernelFold (tableEntry poly) v (d ++ [kernelFold (tableEntry poly) v d]) = tableEntry poly 0x00#8 ∧
      tableEntry poly 0x00#8 = 0x00#8)

/-- R92: the one-shot checksum is the fold from 0x00, and leaves no engine state changed; the check value of
"123456789". -/
def Obligations.ChecksumIsFoldFromZero : Prop :=
  (∀ (t : Index) (data : List Byte) (tab : Byte → Byte) (s : State), t.toNat < s.config.nt → s.isBuilt t = true →
    (∀ i, s.tableRead t i = some (tab i)) →
      ∃ u, checksum t data s = .next (u, some (kernelFold tab 0x00#8 data)) ∧ u.sameEngine s) ∧
  kernelFold (tableEntry 0x07#8) 0x00#8 [0x31#8, 0x32#8, 0x33#8, 0x34#8, 0x35#8, 0x36#8, 0x37#8, 0x38#8, 0x39#8] = 0xF4#8

/-- R94: WRITE and UPDATE compute the same step, and a context freshly bound to a slot that receives `data` holds the
one-shot checksum of `data` over that slot. -/
def Obligations.DigestAgreesWithOneShot : Prop :=
  (∀ (c : Index) (b : Byte) (s : State), s.Inv → (s.ctx c).bound = true →
    ∃ u, exec (.write c b) s = .next u ∧
      exec (.update (s.ctx c).bindt (s.ctx c).crc b) s = .next (s.afterResponse (u.ctx c).crc)) ∧
  ∀ (c t : Index) (data : List Byte) (s : State), s.Inv → c.toNat < s.config.nd → t.toNat < s.config.nt →
    s.isBuilt t = true →
      ∃ u1 u2 u3 x, exec (.bind c t) s = .next u1 ∧ writeN c data u1 = .next (u2, some data.length) ∧
        exec (.sum8 c) u2 = .next (u2.afterResponse x) ∧ checksum t data s = .next (u3, some x)

/-! The digest. -/

/-- R100: BIND, with its encoding and errors and its frame. -/
def Obligations.BindRule : Prop :=
  ∀ (c t : Index) (s : State),
    (∀ w : Word, w.extractLsb' 28 4 = 0x2#4 → executeWord w s =
      if w &&& 0xFF00FFFF#32 = 0x20000000#32 then exec (.bind (w.extractLsb' 16 4) (w.extractLsb' 20 4)) s
      else .next (s.afterFailure 1)) ∧
    (s.config.nd ≤ c.toNat → exec (.bind c t) s = .next (s.afterFailure 2)) ∧
    (c.toNat < s.config.nd → s.config.nt ≤ t.toNat → exec (.bind c t) s = .next (s.afterFailure 2)) ∧
    (c.toNat < s.config.nd → t.toNat < s.config.nt → s.isBuilt t = false →
      exec (.bind c t) s = .next (s.afterFailure 3)) ∧
    (c.toNat < s.config.nd → t.toNat < s.config.nt → s.isBuilt t = true →
      ∃ u, exec (.bind c t) s = .next u ∧ u.ctx c = { crc := 0x00#8, bindt := t, bound := true } ∧
        (∀ d, d ≠ c → u.ctx d = s.ctx d) ∧
        u = { s with contexts := u.contexts, responses := s.responses ++ [0x00000000#32] })

/-- R102: BIND of a bound context starts a new digest there, and the old slot stops being in use by it. -/
def Obligations.RebindStartsNewDigest : Prop :=
  ∀ (c t : Index) (s : State), c.toNat < s.config.nd → t.toNat < s.config.nt → s.isBuilt t = true →
    (s.ctx c).bound = true →
      ∃ u, exec (.bind c t) s = .next u ∧ (u.ctx c).crc = 0x00#8 ∧ (u.ctx c).bindt = t ∧ (u.ctx c).bound = true ∧
        ((s.ctx c).bindt ≠ t →
          (∀ d, d ≠ c → ¬ ((s.ctx d).bound = true ∧ (s.ctx d).bindt = (s.ctx c).bindt)) →
          u.tableInUse (s.ctx c).bindt = false)

/-- R103: WRITE, with its encoding and errors and its frame; it writes `CRC[c]` only. -/
def Obligations.WriteRule : Prop :=
  ∀ (c : Index) (b : Byte) (s : State),
    (∀ w : Word, w.extractLsb' 28 4 = 0x3#4 → executeWord w s =
      if w &&& 0xFFF0FF00#32 = 0x30000000#32 then exec (.write (w.extractLsb' 16 4) (w.extractLsb' 0 8)) s
      else .next (s.afterFailure 1)) ∧
    (s.config.nd ≤ c.toNat → exec (.write c b) s = .next (s.afterFailure 2)) ∧
    (c.toNat < s.config.nd → (s.ctx c).bound = false → exec (.write c b) s = .next (s.afterFailure 4)) ∧
    (∀ x, c.toNat < s.config.nd → (s.ctx c).bound = true →
      s.tableRead (s.ctx c).bindt ((s.ctx c).crc ^^^ b) = some x →
        ∃ u, exec (.write c b) s = .next u ∧
          u.ctx c = { crc := x, bindt := (s.ctx c).bindt, bound := true } ∧ (∀ d, d ≠ c → u.ctx d = s.ctx d) ∧
          u = { s with contexts := u.contexts, responses := s.responses ++ [0x00000001#32] }) ∧
    (s.Inv → (s.ctx c).bound = true →
      ∃ poly, s.tableRead (s.ctx c).bindt ((s.ctx c).crc ^^^ b) = some (tableEntry poly ((s.ctx c).crc ^^^ b)) ∧
        s.tableRead (s.ctx c).bindt 0x00#8 = some 0x00#8)

/-- R104: WRITEN folds its bytes in order, counts them, touches no other context, and never fails under correct usage. -/
def Obligations.WriteNFoldsAndCounts : Prop :=
  ∀ (c : Index) (data : List Byte) (tab : Byte → Byte) (s : State), c.toNat < s.config.nd →
    (s.ctx c).bound = true → (∀ i, s.tableRead (s.ctx c).bindt i = some (tab i)) →
      ∃ u, writeN c data s = .next (u, some data.length) ∧
        u.ctx c = { crc := kernelFold tab (s.ctx c).crc data, bindt := (s.ctx c).bindt, bound := true } ∧
        (∀ d, d ≠ c → u.ctx d = s.ctx d) ∧ u.table = s.table ∧ u.tbuilt = s.tbuilt ∧ u.status = s.status ∧
        (data = [] → u = s)

/-- R105: RESET, with its encoding and errors and its frame; it writes `CRC[c]` only. -/
def Obligations.ResetRule : Prop :=
  ∀ (c : Index) (s : State),
    (∀ w : Word, w.extractLsb' 28 4 = 0x4#4 → executeWord w s =
      if w &&& 0xFFF0FFFF#32 = 0x40000000#32 then exec (.reset (w.extractLsb' 16 4)) s
      else .next (s.afterFailure 1)) ∧
    (s.config.nd ≤ c.toNat → exec (.reset c) s = .next (s.afterFailure 2)) ∧
    (c.toNat < s.config.nd → (s.ctx c).bound = false → exec (.reset c) s = .next (s.afterFailure 4)) ∧
    (c.toNat < s.config.nd → (s.ctx c).bound = true →
      ∃ u, exec (.reset c) s = .next u ∧ u.ctx c = { crc := 0x00#8, bindt := (s.ctx c).bindt, bound := true } ∧
        (∀ d, d ≠ c → u.ctx d = s.ctx d) ∧
        u = { s with contexts := u.contexts, responses := s.responses ++ [0x00000000#32] })

/-- R106: RESET leaves a context as a BIND to its own slot would, so what follows is as for a fresh digest. -/
def Obligations.ResetIsFreshBind : Prop :=
  ∀ (c : Index) (s : State), s.Inv → (s.ctx c).bound = true →
    exec (.reset c) s = exec (.bind c (s.ctx c).bindt) s ∧
      ∃ u, exec (.reset c) s = .next u ∧ exec (.sum8 c) u = .next (u.afterResponse 0x00#8)

/-- R107: SUM8, with its encoding and errors; a non-mutating read. -/
def Obligations.Sum8Rule : Prop :=
  ∀ (c : Index) (s : State),
    (∀ w : Word, w.extractLsb' 28 4 = 0x5#4 → executeWord w s =
      if w &&& 0xFFF0FFFF#32 = 0x50000000#32 then exec (.sum8 (w.extractLsb' 16 4)) s
      else .next (s.afterFailure 1)) ∧
    (s.config.nd ≤ c.toNat → exec (.sum8 c) s = .next (s.afterFailure 2)) ∧
    (c.toNat < s.config.nd → (s.ctx c).bound = false → exec (.sum8 c) s = .next (s.afterFailure 4)) ∧
    (c.toNat < s.config.nd → (s.ctx c).bound = true →
      exec (.sum8 c) s = .next (s.afterResponse (s.ctx c).crc))

/-- R110: SIZE responds 0x01 in every state; any other word of its opcode is illegal. -/
def Obligations.SizeRule : Prop :=
  ∀ s : State, exec .size s = .next { s with responses := s.responses ++ [0x00000001#32] } ∧
    (∀ w : Word, w.extractLsb' 28 4 = 0x8#4 →
      executeWord w s = if w = 0x80000000#32 then exec .size s else .next (s.afterFailure 1))

/-- R112: BLKSZ responds 0x01 in every state; any other word of its opcode is illegal. -/
def Obligations.BlkszRule : Prop :=
  ∀ s : State, exec .blksz s = .next { s with responses := s.responses ++ [0x00000001#32] } ∧
    (∀ w : Word, w.extractLsb' 28 4 = 0x9#4 →
      executeWord w s = if w = 0x90000000#32 then exec .blksz s else .next (s.afterFailure 1))

/-- R114: SUMAPPEND returns its buffer with the digest's value at the end, and changes no engine state. -/
def Obligations.SumAppendPutsValueLast : Prop :=
  ∀ (c : Index) (buffer : List Byte) (s : State), c.toNat < s.config.nd → (s.ctx c).bound = true →
    ∃ u, sumAppend c buffer s = .next (u, some (buffer ++ [(s.ctx c).crc])) ∧ u.sameEngine s

/-! Status. -/

/-- R120: RDSTAT, with its encoding: the response word bit by bit, in every state, and nothing changed. -/
def Obligations.RdstatRule : Prop :=
  ∀ s : State,
    exec .rdstat s = .next { s with responses := s.responses ++ [BitVec.ofNat 32
      ((s.config.nd - 1) * 2 ^ 20 + (s.config.nt - 1) * 2 ^ 16 + (if s.status.err then 0x80 else 0) +
        s.status.ecode.toNat)] } ∧
    (∀ w : Word, w.extractLsb' 28 4 = 0xA#4 →
      executeWord w s = if w = 0xA0000000#32 then exec .rdstat s else .next (s.afterFailure 1))

/-- R121: no other command reads `STATUS`. Its value changes no response and no other state of any of them. -/
def Obligations.OnlyRdstatReadsStatus : Prop :=
  ∀ (i : Instr) (s u : State) (x : Status), i ≠ .rdstat → exec i s = .next u →
    ∃ v, exec i { s with status := x } = .next v ∧ v = { u with status := v.status }

/-- R31: `NT - 1` and `ND - 1` are the same at every point of a run, and RDSTAT reads them. -/
def Obligations.ConfigurationIsConstant : Prop :=
  ∀ (n : Nat) (s u : State), Host.Core.run Sys2Proof.core n s = .next u →
    u.config = s.config ∧
      ∃ r, exec .rdstat u = .next { u with responses := u.responses ++ [r] } ∧
        (r.extractLsb' 20 4).toNat = s.config.nd - 1 ∧ (r.extractLsb' 16 4).toNat = s.config.nt - 1

/-! Errors. -/

/-- R137: the order of the checks. A word is decoded first; then the first check that fails gives the error; where none
fails the command succeeds; and at most one of the last three checks applies to a command. -/
def Obligations.FirstFailingCheckGivesError : Prop :=
  (∀ (w : Word) (s : State), (∃ e, decode w = .error e) → executeWord w s = .next (s.afterFailure 1)) ∧
  (∀ (i : Instr) (s : State) (e : ErrorCode), s.firstError i = some e →
    exec i s = .next (s.afterFailure e.code.toNat)) ∧
  (∀ (i : Instr) (s u : State), s.firstError i = none → exec i s = .next u →
    u.status = s.status ∧ ∃ r, u.responses = s.responses ++ [r] ∧ responseST r = 0x00#8) ∧
  (∀ i : Instr, (needsBound i = none ∧ needsBuilt i = none) ∨ (needsBound i = none ∧ needsFree i = none) ∨
    (needsBuilt i = none ∧ needsFree i = none))

/-- R133: BAD_INDEX before any storage is read, and that the check never fires at 16. -/
def Obligations.BadIndexBeforeStorage : Prop :=
  (∀ (i : Instr) (s : State),
    (∃ t ∈ usedT i, s.config.nt ≤ t.toNat) ∨ (∃ c ∈ usedC i, s.config.nd ≤ c.toNat) →
      exec i s = .next (s.afterFailure 2)) ∧
  (∀ s : State, s.config.nt = 16 → ∀ t : Index, t.toNat < s.config.nt) ∧
  (∀ s : State, s.config.nd = 16 → ∀ c : Index, c.toNat < s.config.nd)

/-- R130: no data value causes an error. Whether and how a command fails does not depend on its byte operands. -/
def Obligations.NoDataValueCausesError : Prop :=
  ∀ (t c : Index) (p p' v v' b b' : Byte) (s : State) (code : Nat), 1 ≤ code → code ≤ 5 →
    (exec (.build t p) s = .next (s.afterFailure code) → exec (.build t p') s = .next (s.afterFailure code)) ∧
    (exec (.write c b) s = .next (s.afterFailure code) → exec (.write c b') s = .next (s.afterFailure code)) ∧
    (exec (.update t v b) s = .next (s.afterFailure code) →
      exec (.update t v' b') s = .next (s.afterFailure code)) ∧
    (exec (.tread t b) s = .next (s.afterFailure code) → exec (.tread t b') s = .next (s.afterFailure code))

/-- R136: a command whose response carries an error code has changed nothing but `STATUS`, and `STATUS` only if it was
the first failure. -/
def Obligations.FailuresArePrecise : Prop :=
  ∀ (w : Word) (s u : State) (r : Word), executeWord w s = .next u → u.responses = s.responses ++ [r] →
    responseST r ≠ 0x00#8 → u = s.afterFailure (responseST r).toNat ∧ r = responseST r ++ (0#24 : BitVec 24)

/-- R138: once `ERR` is 1, no command and no further failure changes `STATUS`, and a further failure changes only its own
response; only hardware reset changes `STATUS`. -/
def Obligations.StatusIsStickyUntilReset : Prop :=
  (∀ (w : Word) (s u : State), s.status.err = true → executeWord w s = .next u → u.status = s.status) ∧
  (∀ (w : Word) (s u : State) (r : Word), s.status.err = true → executeWord w s = .next u →
    u.responses = s.responses ++ [r] → responseST r ≠ 0x00#8 → u = { s with responses := s.responses ++ [r] }) ∧
  (∀ s u : State, s.status.err = true → step s = .next u →
    u.status = s.status ∨ s.nextInput (Config.arbiter s.turn) = some (.resetLine .asserted))

/-- R66: every word, legal or not, gets exactly one response, of the form the rule gives. -/
def Obligations.OneResponsePerCommand : Prop :=
  ∀ (w : Word) (s u : State), executeWord w s = .next u →
    ∃ r, u.responses = s.responses ++ [r] ∧ responseReserved r = 0x00#8 ∧ (responseST r).toNat ≤ 5 ∧
      (responseST r ≠ 0x00#8 → responseCFG r = 0x00#8 ∧ responseDATA r = 0x00#8) ∧
      (decode w ≠ .ok .rdstat → responseCFG r = 0x00#8) ∧
      (decode w = .ok .rdstat → responseCFG r = BitVec.ofNat 8 ((s.config.nd - 1) * 16 + (s.config.nt - 1)))

/-- R70: a WRITEN whose context is not usable has no result, and the failure is in `STATUS` (the model issues all its
commands, log 8). -/
def Obligations.FailedWriteNHasNoResult : Prop :=
  ∀ (c : Index) (b : Byte) (data : List Byte) (s : State), s.firstError (.write c b) ≠ none →
    ∃ u, writeN c (b :: data) s = .next (u, none) ∧ u.faulted

/-- The model's own stop (log 1): a built slot whose entry has no value, in states no run reaches. -/
def Obligations.EntryWithoutValueStops : Prop :=
  ∀ (t c : Index) (v b : Byte) (s : State),
    (t.toNat < s.config.nt → s.isBuilt t = true → s.tableRead t b = none →
      exec (.tread t b) s = .fault (.tableEntryNoValue t b)) ∧
    (t.toNat < s.config.nt → s.isBuilt t = true → s.tableRead t (v ^^^ b) = none →
      exec (.update t v b) s = .fault (.tableEntryNoValue t (v ^^^ b))) ∧
    (c.toNat < s.config.nd → (s.ctx c).bound = true →
      s.tableRead (s.ctx c).bindt ((s.ctx c).crc ^^^ b) = none →
      exec (.write c b) s = .fault (.tableEntryNoValue (s.ctx c).bindt ((s.ctx c).crc ^^^ b)))

/-! Whole-machine rules. -/

/-- R21 to R25, R42: which commands can write each piece of state. -/
def Obligations.StateWrittenOnlyByItsCommands : Prop :=
  ∀ (i : Instr) (s u : State), exec i s = .next u →
    (∀ t idx, u.tableRead t idx ≠ s.tableRead t idx → ∃ poly, i = .build t poly) ∧
    (∀ t, u.isBuilt t ≠ s.isBuilt t → ∃ poly, i = .build t poly) ∧
    (∀ c, (u.ctx c).crc ≠ (s.ctx c).crc → (∃ t, i = .bind c t) ∨ (∃ b, i = .write c b) ∨ i = .reset c) ∧
    (∀ c, (u.ctx c).bindt ≠ (s.ctx c).bindt ∨ (u.ctx c).bound ≠ (s.ctx c).bound → ∃ t, i = .bind c t) ∧
    u.config = s.config ∧ u.hosts = s.hosts ∧ u.resetChanges = s.resetChanges ∧ u.resetHeld = s.resetHeld ∧
    u.turn = s.turn ∧ u.served = s.served

/-- R22, R25: `TBUILT` and `BOUND` are cleared by no step but hardware reset. -/
def Obligations.BuiltAndBoundClearedOnlyByReset : Prop :=
  ∀ s u : State, step s = .next u → s.nextInput (Config.arbiter s.turn) ≠ some (.resetLine .asserted) →
    (∀ t, s.isBuilt t = true → u.isBuilt t = true) ∧ (∀ c, (s.ctx c).bound = true → (u.ctx c).bound = true)

/-- R34, R81: no command changes an entry of a slot that a bound context names. -/
def Obligations.TableInUseIsImmutable : Prop :=
  ∀ (i : Instr) (t : Index) (s u : State), s.tableInUse t = true → exec i s = .next u →
    ∀ idx, u.tableRead t idx = s.tableRead t idx

/-- R49: commands that only read, and that repeating an idempotent command changes nothing more. -/
def Obligations.ReadsAndRepeatsAreIdempotent : Prop :=
  (∀ (i : Instr) (s u : State), s.firstError i = none → exec i s = .next u →
    ((∃ c, i = .sum8 c) ∨ (∃ t v b, i = .update t v b) ∨ (∃ t idx, i = .tread t idx) ∨ i = .size ∨ i = .blksz ∨
      i = .rdstat) → u.sameEngine s) ∧
  (∀ (i : Instr) (s u : State), s.firstError i = none → exec i s = .next u →
    ((∃ c, i = .reset c) ∨ (∃ c, i = .sum8 c) ∨ (∃ t v b, i = .update t v b) ∨ (∃ t idx, i = .tread t idx) ∨
      i = .size ∨ i = .blksz ∨ i = .rdstat ∨ (∃ t poly, i = .build t poly)) →
    ∃ v r, exec i u = .next v ∧ v.sameEngine u ∧ u.responses = s.responses ++ [r] ∧
      v.responses = u.responses ++ [r])

/-- R26, in every reachable state: whatever the configuration, the commands sent and the resets. -/
def Obligations.BoundContextsNameBuiltSlots : Prop :=
  (∀ s u : State, s.boundContextsNameBuiltSlots → step s = .next u → u.boundContextsNameBuiltSlots) ∧
  (∀ (k : Config) (hosts : List (List Word)) (changes : List ResetChange) (n : Nat) (u : State),
    Host.Core.run Sys2Proof.core n { State.resetWith k with hosts := hosts, resetChanges := changes } = .next u →
      u.boundContextsNameBuiltSlots)

/-- The invariant holds right after reset, in every configuration. -/
def Obligations.InvariantHoldsAtReset : Prop := (∀ k : Config, (State.resetWith k).Inv) ∧ State.reset.Inv

/-- Every step keeps the invariant. -/
def Obligations.StepKeepsInvariant : Prop := ∀ s u : State, s.Inv → step s = .next u → u.Inv

/-- From every state of the invariant the machine goes on: no command word, no data and no order of the hosts stops it
(R130, R136, R157). -/
def Obligations.EngineNeverStops : Prop := ∀ s : State, s.Inv → ∃ u, step s = .next u
end

