-- ==== Sys2Proof/Laws/State.lean ====
section
/-! SUPPORT. What each operation does to each field of the state: one lemma per field per operation, so that no later
proof unfolds a record update. -/

namespace Sys2Proof.Machine

variable (s : State)

@[simp] theorem State.reply_config (w : Word) : (s.reply w).config = s.config := rfl
@[simp] theorem State.reply_table (w : Word) : (s.reply w).table = s.table := rfl
@[simp] theorem State.reply_tbuilt (w : Word) : (s.reply w).tbuilt = s.tbuilt := rfl
@[simp] theorem State.reply_contexts (w : Word) : (s.reply w).contexts = s.contexts := rfl
@[simp] theorem State.reply_status (w : Word) : (s.reply w).status = s.status := rfl
@[simp] theorem State.reply_hosts (w : Word) : (s.reply w).hosts = s.hosts := rfl
@[simp] theorem State.reply_resetChanges (w : Word) : (s.reply w).resetChanges = s.resetChanges := rfl
@[simp] theorem State.reply_resetHeld (w : Word) : (s.reply w).resetHeld = s.resetHeld := rfl
@[simp] theorem State.reply_turn (w : Word) : (s.reply w).turn = s.turn := rfl
@[simp] theorem State.reply_responses (w : Word) : (s.reply w).responses = s.responses ++ [w] := rfl
@[simp] theorem State.reply_served (w : Word) : (s.reply w).served = s.served := rfl

@[simp] theorem State.respond_config (d : Byte) : (s.respond d).config = s.config := rfl
@[simp] theorem State.respond_table (d : Byte) : (s.respond d).table = s.table := rfl
@[simp] theorem State.respond_tbuilt (d : Byte) : (s.respond d).tbuilt = s.tbuilt := rfl
@[simp] theorem State.respond_contexts (d : Byte) : (s.respond d).contexts = s.contexts := rfl
@[simp] theorem State.respond_status (d : Byte) : (s.respond d).status = s.status := rfl
@[simp] theorem State.respond_hosts (d : Byte) : (s.respond d).hosts = s.hosts := rfl
@[simp] theorem State.respond_resetChanges (d : Byte) : (s.respond d).resetChanges = s.resetChanges := rfl
@[simp] theorem State.respond_resetHeld (d : Byte) : (s.respond d).resetHeld = s.resetHeld := rfl
@[simp] theorem State.respond_turn (d : Byte) : (s.respond d).turn = s.turn := rfl
@[simp] theorem State.respond_responses (d : Byte) : (s.respond d).responses = s.responses ++ [responseWord 0x00#8 0x00#8 d] := rfl
@[simp] theorem State.respond_served (d : Byte) : (s.respond d).served = s.served := rfl

@[simp] theorem State.fail_config (e : ErrorCode) : (s.fail e).config = s.config := rfl
@[simp] theorem State.fail_table (e : ErrorCode) : (s.fail e).table = s.table := rfl
@[simp] theorem State.fail_tbuilt (e : ErrorCode) : (s.fail e).tbuilt = s.tbuilt := rfl
@[simp] theorem State.fail_contexts (e : ErrorCode) : (s.fail e).contexts = s.contexts := rfl
@[simp] theorem State.fail_status (e : ErrorCode) : (s.fail e).status = s.status.record e := rfl
@[simp] theorem State.fail_hosts (e : ErrorCode) : (s.fail e).hosts = s.hosts := rfl
@[simp] theorem State.fail_resetChanges (e : ErrorCode) : (s.fail e).resetChanges = s.resetChanges := rfl
@[simp] theorem State.fail_resetHeld (e : ErrorCode) : (s.fail e).resetHeld = s.resetHeld := rfl
@[simp] theorem State.fail_turn (e : ErrorCode) : (s.fail e).turn = s.turn := rfl
@[simp] theorem State.fail_responses (e : ErrorCode) : (s.fail e).responses = s.responses ++ [responseWord e.code 0x00#8 0x00#8] := rfl
@[simp] theorem State.fail_served (e : ErrorCode) : (s.fail e).served = s.served := rfl

@[simp] theorem State.fillSlot_config (t : Index) (f : Byte → Byte) : (s.fillSlot t f).config = s.config := rfl
@[simp] theorem State.fillSlot_tbuilt (t : Index) (f : Byte → Byte) : (s.fillSlot t f).tbuilt = s.tbuilt := rfl
@[simp] theorem State.fillSlot_contexts (t : Index) (f : Byte → Byte) : (s.fillSlot t f).contexts = s.contexts := rfl
@[simp] theorem State.fillSlot_status (t : Index) (f : Byte → Byte) : (s.fillSlot t f).status = s.status := rfl
@[simp] theorem State.fillSlot_hosts (t : Index) (f : Byte → Byte) : (s.fillSlot t f).hosts = s.hosts := rfl
@[simp] theorem State.fillSlot_resetChanges (t : Index) (f : Byte → Byte) : (s.fillSlot t f).resetChanges = s.resetChanges := rfl
@[simp] theorem State.fillSlot_resetHeld (t : Index) (f : Byte → Byte) : (s.fillSlot t f).resetHeld = s.resetHeld := rfl
@[simp] theorem State.fillSlot_turn (t : Index) (f : Byte → Byte) : (s.fillSlot t f).turn = s.turn := rfl
@[simp] theorem State.fillSlot_responses (t : Index) (f : Byte → Byte) : (s.fillSlot t f).responses = s.responses := rfl
@[simp] theorem State.fillSlot_served (t : Index) (f : Byte → Byte) : (s.fillSlot t f).served = s.served := rfl

@[simp] theorem State.setBuilt_config (t : Index) : (s.setBuilt t).config = s.config := rfl
@[simp] theorem State.setBuilt_table (t : Index) : (s.setBuilt t).table = s.table := rfl
@[simp] theorem State.setBuilt_tbuilt (t : Index) : (s.setBuilt t).tbuilt = s.tbuilt.set t.toNat true t.isLt := rfl
@[simp] theorem State.setBuilt_contexts (t : Index) : (s.setBuilt t).contexts = s.contexts := rfl
@[simp] theorem State.setBuilt_status (t : Index) : (s.setBuilt t).status = s.status := rfl
@[simp] theorem State.setBuilt_hosts (t : Index) : (s.setBuilt t).hosts = s.hosts := rfl
@[simp] theorem State.setBuilt_resetChanges (t : Index) : (s.setBuilt t).resetChanges = s.resetChanges := rfl
@[simp] theorem State.setBuilt_resetHeld (t : Index) : (s.setBuilt t).resetHeld = s.resetHeld := rfl
@[simp] theorem State.setBuilt_turn (t : Index) : (s.setBuilt t).turn = s.turn := rfl
@[simp] theorem State.setBuilt_responses (t : Index) : (s.setBuilt t).responses = s.responses := rfl
@[simp] theorem State.setBuilt_served (t : Index) : (s.setBuilt t).served = s.served := rfl

@[simp] theorem State.setCtx_config (c : Index) (x : Context) : (s.setCtx c x).config = s.config := rfl
@[simp] theorem State.setCtx_table (c : Index) (x : Context) : (s.setCtx c x).table = s.table := rfl
@[simp] theorem State.setCtx_tbuilt (c : Index) (x : Context) : (s.setCtx c x).tbuilt = s.tbuilt := rfl
@[simp] theorem State.setCtx_contexts (c : Index) (x : Context) : (s.setCtx c x).contexts = s.contexts.set c.toNat x c.isLt := rfl
@[simp] theorem State.setCtx_status (c : Index) (x : Context) : (s.setCtx c x).status = s.status := rfl
@[simp] theorem State.setCtx_hosts (c : Index) (x : Context) : (s.setCtx c x).hosts = s.hosts := rfl
@[simp] theorem State.setCtx_resetChanges (c : Index) (x : Context) : (s.setCtx c x).resetChanges = s.resetChanges := rfl
@[simp] theorem State.setCtx_resetHeld (c : Index) (x : Context) : (s.setCtx c x).resetHeld = s.resetHeld := rfl
@[simp] theorem State.setCtx_turn (c : Index) (x : Context) : (s.setCtx c x).turn = s.turn := rfl
@[simp] theorem State.setCtx_responses (c : Index) (x : Context) : (s.setCtx c x).responses = s.responses := rfl
@[simp] theorem State.setCtx_served (c : Index) (x : Context) : (s.setCtx c x).served = s.served := rfl

@[simp] theorem State.setCrc_config (c : Index) (v : Byte) : (s.setCrc c v).config = s.config := rfl
@[simp] theorem State.setCrc_table (c : Index) (v : Byte) : (s.setCrc c v).table = s.table := rfl
@[simp] theorem State.setCrc_tbuilt (c : Index) (v : Byte) : (s.setCrc c v).tbuilt = s.tbuilt := rfl
@[simp] theorem State.setCrc_contexts (c : Index) (v : Byte) : (s.setCrc c v).contexts = s.contexts.set c.toNat { s.ctx c with crc := v } c.isLt := rfl
@[simp] theorem State.setCrc_status (c : Index) (v : Byte) : (s.setCrc c v).status = s.status := rfl
@[simp] theorem State.setCrc_hosts (c : Index) (v : Byte) : (s.setCrc c v).hosts = s.hosts := rfl
@[simp] theorem State.setCrc_resetChanges (c : Index) (v : Byte) : (s.setCrc c v).resetChanges = s.resetChanges := rfl
@[simp] theorem State.setCrc_resetHeld (c : Index) (v : Byte) : (s.setCrc c v).resetHeld = s.resetHeld := rfl
@[simp] theorem State.setCrc_turn (c : Index) (v : Byte) : (s.setCrc c v).turn = s.turn := rfl
@[simp] theorem State.setCrc_responses (c : Index) (v : Byte) : (s.setCrc c v).responses = s.responses := rfl
@[simp] theorem State.setCrc_served (c : Index) (v : Byte) : (s.setCrc c v).served = s.served := rfl

@[simp] theorem State.hardwareReset_config : s.hardwareReset.config = s.config := rfl
@[simp] theorem State.hardwareReset_table : s.hardwareReset.table = [] := rfl
@[simp] theorem State.hardwareReset_tbuilt : s.hardwareReset.tbuilt = Vector.replicate 16 false := rfl
@[simp] theorem State.hardwareReset_contexts : s.hardwareReset.contexts = Vector.replicate 16 Context.afterReset := rfl
@[simp] theorem State.hardwareReset_status : s.hardwareReset.status = Status.afterReset := rfl
@[simp] theorem State.hardwareReset_hosts : s.hardwareReset.hosts = s.hosts := rfl
@[simp] theorem State.hardwareReset_resetChanges : s.hardwareReset.resetChanges = s.resetChanges := rfl
@[simp] theorem State.hardwareReset_resetHeld : s.hardwareReset.resetHeld = s.resetHeld := rfl
@[simp] theorem State.hardwareReset_turn : s.hardwareReset.turn = s.turn := rfl
@[simp] theorem State.hardwareReset_responses : s.hardwareReset.responses = s.responses := rfl
@[simp] theorem State.hardwareReset_served : s.hardwareReset.served = s.served := rfl

@[simp] theorem State.serve_config (h : Nat) : (s.serve h).config = s.config := rfl
@[simp] theorem State.serve_table (h : Nat) : (s.serve h).table = s.table := rfl
@[simp] theorem State.serve_tbuilt (h : Nat) : (s.serve h).tbuilt = s.tbuilt := rfl
@[simp] theorem State.serve_contexts (h : Nat) : (s.serve h).contexts = s.contexts := rfl
@[simp] theorem State.serve_status (h : Nat) : (s.serve h).status = s.status := rfl
@[simp] theorem State.serve_hosts (h : Nat) : (s.serve h).hosts = s.hosts := rfl
@[simp] theorem State.serve_resetChanges (h : Nat) : (s.serve h).resetChanges = s.resetChanges := rfl
@[simp] theorem State.serve_resetHeld (h : Nat) : (s.serve h).resetHeld = s.resetHeld := rfl
@[simp] theorem State.serve_turn (h : Nat) : (s.serve h).turn = s.turn := rfl
@[simp] theorem State.serve_responses (h : Nat) : (s.serve h).responses = s.responses := rfl
@[simp] theorem State.serve_served (h : Nat) : (s.serve h).served = s.served ++ [h] := rfl

@[simp] theorem State.taken_command_config (h : Nat) (w : Word) : (s.taken (.command h w)).config = s.config := rfl
@[simp] theorem State.taken_command_table (h : Nat) (w : Word) : (s.taken (.command h w)).table = s.table := rfl
@[simp] theorem State.taken_command_tbuilt (h : Nat) (w : Word) : (s.taken (.command h w)).tbuilt = s.tbuilt := rfl
@[simp] theorem State.taken_command_contexts (h : Nat) (w : Word) : (s.taken (.command h w)).contexts = s.contexts := rfl
@[simp] theorem State.taken_command_status (h : Nat) (w : Word) : (s.taken (.command h w)).status = s.status := rfl
@[simp] theorem State.taken_command_hosts (h : Nat) (w : Word) : (s.taken (.command h w)).hosts = dropFirst h s.hosts := rfl
@[simp] theorem State.taken_command_resetChanges (h : Nat) (w : Word) : (s.taken (.command h w)).resetChanges = s.resetChanges := rfl
@[simp] theorem State.taken_command_resetHeld (h : Nat) (w : Word) : (s.taken (.command h w)).resetHeld = s.resetHeld := rfl
@[simp] theorem State.taken_command_turn (h : Nat) (w : Word) : (s.taken (.command h w)).turn = s.turn + 1 := rfl
@[simp] theorem State.taken_command_responses (h : Nat) (w : Word) : (s.taken (.command h w)).responses = s.responses := rfl
@[simp] theorem State.taken_command_served (h : Nat) (w : Word) : (s.taken (.command h w)).served = s.served := rfl

@[simp] theorem State.taken_resetLine_config (x : ResetChange) : (s.taken (.resetLine x)).config = s.config := rfl
@[simp] theorem State.taken_resetLine_table (x : ResetChange) : (s.taken (.resetLine x)).table = s.table := rfl
@[simp] theorem State.taken_resetLine_tbuilt (x : ResetChange) : (s.taken (.resetLine x)).tbuilt = s.tbuilt := rfl
@[simp] theorem State.taken_resetLine_contexts (x : ResetChange) : (s.taken (.resetLine x)).contexts = s.contexts := rfl
@[simp] theorem State.taken_resetLine_status (x : ResetChange) : (s.taken (.resetLine x)).status = s.status := rfl
@[simp] theorem State.taken_resetLine_hosts (x : ResetChange) : (s.taken (.resetLine x)).hosts = s.hosts := rfl
@[simp] theorem State.taken_resetLine_resetChanges (x : ResetChange) : (s.taken (.resetLine x)).resetChanges = s.resetChanges.tail := rfl
@[simp] theorem State.taken_resetLine_resetHeld (x : ResetChange) : (s.taken (.resetLine x)).resetHeld = s.resetHeld := rfl
@[simp] theorem State.taken_resetLine_turn (x : ResetChange) : (s.taken (.resetLine x)).turn = s.turn + 1 := rfl
@[simp] theorem State.taken_resetLine_responses (x : ResetChange) : (s.taken (.resetLine x)).responses = s.responses := rfl
@[simp] theorem State.taken_resetLine_served (x : ResetChange) : (s.taken (.resetLine x)).served = s.served := rfl

end Sys2Proof.Machine
end

