-- ==== Sys2Proof/Laws/Memory.lean ====
section
/-! SUPPORT. The laws of the table storage: a read after a write, the cells a write leaves alone, and that every memory
operation keeps the canonical form. -/

namespace Sys2Proof.Machine

theorem entryAddress_inj {t t' : Index} {i i' : Byte} : entryAddress t i = entryAddress t' i' ↔ t = t' ∧ i = i' := by
  have hi := i.isLt
  have hi' := i'.isLt
  simp only [entryAddress, ← BitVec.toNat_inj]
  omega

theorem Memory.read_write_same (a : Nat) (v : Byte) (m : List Host.Cell) : Memory.read a (Memory.write a v m) = some v := by
  induction m with
  | nil => simp [Memory.write, Memory.read]
  | cons cell rest ih =>
    obtain ⟨k, x⟩ := cell
    simp only [Memory.write]
    split
    · simp [Memory.read]
    · split
      · simp [Memory.read]
      · simp [Memory.read, *]

theorem Memory.read_write_other {a b : Nat} (h : b ≠ a) (v : Byte) (m : List Host.Cell) :
    Memory.read b (Memory.write a v m) = Memory.read b m := by
  induction m with
  | nil => simp [Memory.write, Memory.read, h]
  | cons cell rest ih =>
    obtain ⟨k, x⟩ := cell
    simp only [Memory.write]
    split
    · simp [Memory.read, h]
    · split
      · subst a; simp [Memory.read, h]
      · simp [Memory.read, ih]

theorem Memory.mem_write {a : Nat} {v : Byte} {m : List Host.Cell} {cell : Host.Cell} (h : cell ∈ Memory.write a v m) :
    cell = (a, v) ∨ cell ∈ m := by
  induction m with
  | nil => simpa [Memory.write] using h
  | cons c rest ih =>
    obtain ⟨k, x⟩ := c
    simp only [Memory.write] at h
    split at h
    · simpa using h
    · split at h
      · rcases List.mem_cons.1 h with h | h <;> simp [h]
      · rcases List.mem_cons.1 h with h | h
        · simp [h]
        · rcases ih h with h | h <;> simp [h]

theorem Memory.write_wf {m : List Host.Cell} (h : Memory.wf m) (a : Nat) (v : Byte) : Memory.wf (Memory.write a v m) := by
  induction m with
  | nil => simp [Memory.write, Memory.wf]
  | cons c rest ih =>
    obtain ⟨k, x⟩ := c
    have hr : Memory.wf rest := (List.pairwise_cons.1 h).2
    have hk := (List.pairwise_cons.1 h).1
    simp only [Memory.write]
    split
    · rename_i hlt
      refine List.pairwise_cons.2 ⟨fun y hy => ?_, h⟩
      rcases List.mem_cons.1 hy with rfl | hy
      · exact hlt
      · exact Nat.lt_trans hlt (hk y hy)
    · split
      · rename_i heq
        subst heq
        exact List.pairwise_cons.2 ⟨hk, hr⟩
      · refine List.pairwise_cons.2 ⟨fun y hy => ?_, ih hr⟩
        rcases Memory.mem_write hy with rfl | hy
        · exact Nat.lt_of_le_of_ne (Nat.le_of_not_lt ‹_›) (Ne.symm ‹_›)
        · exact hk y hy

theorem Memory.read_append (a : Nat) (l m : List Host.Cell) :
    Memory.read a (l ++ m) = (Memory.read a l).or (Memory.read a m) := by
  induction l with
  | nil => simp [Memory.read]
  | cons c rest ih =>
    obtain ⟨k, x⟩ := c
    simp only [List.cons_append, Memory.read]
    split <;> simp [ih]

theorem Memory.read_filter (a : Nat) (p : Nat → Bool) (m : List Host.Cell) :
    Memory.read a (m.filter fun cell => p cell.1) = if p a then Memory.read a m else none := by
  induction m with
  | nil => simp [Memory.read]
  | cons c rest ih =>
    obtain ⟨k, x⟩ := c
    by_cases hk : p k = true
    · by_cases ha : a = k
      · subst ha; simp [Memory.read, hk]
      · simp [Memory.read, hk, ih, ha]
    · by_cases ha : a = k
      · subst ha; simp [hk, ih]
      · simp [Memory.read, hk, ih, ha]

theorem Memory.read_none_of_not_mem {a : Nat} {m : List Host.Cell} (h : ∀ cell ∈ m, cell.1 ≠ a) : Memory.read a m = none := by
  induction m with
  | nil => rfl
  | cons c rest ih =>
    obtain ⟨k, x⟩ := c
    have hk : k ≠ a := h (k, x) (by simp)
    simp [Memory.read, Ne.symm hk, ih fun cell hc => h cell (by simp [hc])]

theorem Memory.read_run (base : Nat) (f : Nat → Byte) (n k : Nat) (h : k < n) :
    Memory.read (base + k) ((List.range n).map fun i => (base + i, f i)) = some (f k) := by
  induction n with
  | zero => omega
  | succ n ih =>
    rw [List.range_succ, List.map_append, Memory.read_append]
    by_cases hk : k < n
    · simp [ih hk]
    · have : k = n := by omega
      subst this
      rw [Memory.read_none_of_not_mem (by simp; omega)]
      simp [Memory.read]

theorem Memory.read_writeSlot_inside (t : Index) (f : Byte → Byte) (m : List Host.Cell) (i : Byte) :
    Memory.read (entryAddress t i) (Memory.writeSlot t f m) = some (f i) := by
  have hi : i.toNat < 256 := i.isLt
  have h := Memory.read_run (256 * t.toNat) (fun k => f (BitVec.ofNat 8 k)) 256 i.toNat hi
  simp only [Memory.writeSlot, Memory.read_append, entryAddress, h,
    Memory.read_filter _ (fun a => decide (a < 256 * t.toNat))]
  simp

theorem Memory.read_writeSlot_outside {a : Nat} (t : Index) (f : Byte → Byte) (m : List Host.Cell)
    (h : a < 256 * t.toNat ∨ 256 * t.toNat + 256 ≤ a) : Memory.read a (Memory.writeSlot t f m) = Memory.read a m := by
  have hrun : Memory.read a ((List.range 256).map fun i => (256 * t.toNat + i, f (BitVec.ofNat 8 i))) = none := by
    refine Memory.read_none_of_not_mem fun cell hc => ?_
    obtain ⟨i, hi, rfl⟩ := List.mem_map.1 hc
    have := List.mem_range.1 hi
    simp only
    omega
  simp only [Memory.writeSlot, Memory.read_append, hrun, Memory.read_filter _ (fun a => decide (a < 256 * t.toNat)),
    Memory.read_filter _ (fun a => decide (256 * t.toNat + 256 ≤ a)), decide_eq_true_eq]
  rcases h with h | h
  · rw [if_pos h, if_neg (by omega)]; simp
  · rw [if_neg (by omega), if_pos h]; simp

theorem Memory.mem_writeSlot {t : Index} {f : Byte → Byte} {m : List Host.Cell} {cell : Host.Cell}
    (h : cell ∈ Memory.writeSlot t f m) : cell ∈ m ∨ cell.1 < 256 * t.toNat + 256 := by
  simp only [Memory.writeSlot, List.mem_append, List.mem_filter, List.mem_map, List.mem_range] at h
  rcases h with (h | ⟨i, hi, rfl⟩) | h
  · exact .inl h.1
  · exact .inr (by omega)
  · exact .inl h.1

theorem Memory.writeSlot_wf {m : List Host.Cell} (h : Memory.wf m) (t : Index) (f : Byte → Byte) :
    Memory.wf (Memory.writeSlot t f m) := by
  have hrun : ((List.range 256).map fun i => ((256 * t.toNat + i, f (BitVec.ofNat 8 i)) : Host.Cell)).Pairwise
      fun x y => x.1 < y.1 := by
    exact List.pairwise_map.2 (List.pairwise_lt_range.imp fun hab => Nat.add_lt_add_left hab _)
  simp only [Memory.wf, Memory.writeSlot, List.pairwise_append, List.mem_append, List.mem_filter, List.mem_map,
    List.mem_range, decide_eq_true_eq]
  refine ⟨⟨h.filter _, hrun, ?_⟩, h.filter _, ?_⟩
  · rintro x ⟨-, hx⟩ y ⟨i, -, rfl⟩
    omega
  · rintro x (⟨-, hx⟩ | ⟨i, hi, rfl⟩) y ⟨-, hy⟩ <;> omega

/-! Reading an entry through each operation. -/

variable (s : State)

@[simp] theorem State.tableRead_reply (t : Index) (i : Byte) (w : Word) : (s.reply w).tableRead t i = s.tableRead t i := rfl
@[simp] theorem State.tableRead_respond (t : Index) (i d : Byte) : (s.respond d).tableRead t i = s.tableRead t i := rfl
@[simp] theorem State.tableRead_fail (t : Index) (i : Byte) (e : ErrorCode) : (s.fail e).tableRead t i = s.tableRead t i := rfl
@[simp] theorem State.tableRead_setBuilt (t u : Index) (i : Byte) : (s.setBuilt u).tableRead t i = s.tableRead t i := rfl
@[simp] theorem State.tableRead_setCtx (t c : Index) (i : Byte) (x : Context) :
    (s.setCtx c x).tableRead t i = s.tableRead t i := rfl
@[simp] theorem State.tableRead_setCrc (t c : Index) (i v : Byte) : (s.setCrc c v).tableRead t i = s.tableRead t i := rfl
@[simp] theorem State.tableRead_serve (t : Index) (i : Byte) (h : Nat) : (s.serve h).tableRead t i = s.tableRead t i := rfl
@[simp] theorem State.tableRead_hardwareReset (t : Index) (i : Byte) : s.hardwareReset.tableRead t i = none := rfl

@[simp] theorem State.tableRead_fillSlot (t u : Index) (i : Byte) (f : Byte → Byte) :
    (s.fillSlot u f).tableRead t i = if t = u then some (f i) else s.tableRead t i := by
  split
  · subst t; exact Memory.read_writeSlot_inside u f s.table i
  · rename_i hne
    refine Memory.read_writeSlot_outside u f s.table ?_
    have := i.isLt
    have : t.toNat ≠ u.toNat := fun h => hne (BitVec.eq_of_toNat_eq h)
    simp only [entryAddress]
    omega

/-- No table entry has a value right after reset, and the storage is in its canonical form. -/
theorem State.resetWith_table_wf (k : Config) : Memory.wf (State.resetWith k).table := List.Pairwise.nil

/-- Canonical memories that read the same are the same data. -/
theorem Memory.eq_of_read {m m' : List Host.Cell} (h : Memory.wf m) (h' : Memory.wf m')
    (hr : ∀ a, Memory.read a m = Memory.read a m') : m = m' := by
  induction m generalizing m' with
  | nil =>
    cases m' with
    | nil => rfl
    | cons c r => obtain ⟨k, x⟩ := c; have := hr k; simp [Memory.read] at this
  | cons c r ih =>
    obtain ⟨k, x⟩ := c
    cases m' with
    | nil => have := hr k; simp [Memory.read] at this
    | cons c' r' =>
      obtain ⟨k', x'⟩ := c'
      have a1 := List.pairwise_cons.1 h
      have a2 := List.pairwise_cons.1 h'
      have hk : k = k' := by
        rcases Nat.lt_trichotomy k k' with hlt | heq | hlt
        · have := hr k
          rw [Memory.read, if_pos rfl, Memory.read_none_of_not_mem] at this
          · cases this
          · intro cell hc
            rcases List.mem_cons.1 hc with rfl | hc
            · simp only; omega
            · have := a2.1 cell hc; simp only at this; omega
        · exact heq
        · have := hr k'
          rw [eq_comm, Memory.read, if_pos rfl, Memory.read_none_of_not_mem] at this
          · cases this
          · intro cell hc
            rcases List.mem_cons.1 hc with rfl | hc
            · simp only; omega
            · have := a1.1 cell hc; simp only at this; omega
      subst hk
      have hx := hr k
      simp only [Memory.read, if_true, Option.some.injEq] at hx
      subst hx
      congr 1
      refine ih a1.2 a2.2 fun a => ?_
      by_cases ha : a = k
      · subst ha
        rw [Memory.read_none_of_not_mem, Memory.read_none_of_not_mem]
        · intro cell hc; have := a2.1 cell hc; simp only at this; omega
        · intro cell hc; have := a1.1 cell hc; simp only at this; omega
      · have := hr a
        simpa [Memory.read, ha] using this

end Sys2Proof.Machine
end

