-- ==== Sys2Proof/Laws/Ops.lean ====
section
/-! SUPPORT. What each shared operation and check says: contexts, built flags, index checks and the in-use check, through
every operation that could touch them. -/

namespace Sys2Proof.Machine

variable (s : State)

/-! Contexts. -/

@[simp] theorem State.ctx_reply (c : Index) (w : Word) : (s.reply w).ctx c = s.ctx c := rfl
@[simp] theorem State.ctx_respond (c : Index) (d : Byte) : (s.respond d).ctx c = s.ctx c := rfl
@[simp] theorem State.ctx_fail (c : Index) (e : ErrorCode) : (s.fail e).ctx c = s.ctx c := rfl
@[simp] theorem State.ctx_setBuilt (c t : Index) : (s.setBuilt t).ctx c = s.ctx c := rfl
@[simp] theorem State.ctx_fillSlot (c t : Index) (f : Byte → Byte) : (s.fillSlot t f).ctx c = s.ctx c := rfl
@[simp] theorem State.ctx_serve (c : Index) (h : Nat) : (s.serve h).ctx c = s.ctx c := rfl

@[simp] theorem State.ctx_hardwareReset (c : Index) : s.hardwareReset.ctx c = Context.afterReset := by
  simp [State.ctx]

@[simp] theorem State.ctx_setCtx (c d : Index) (x : Context) : (s.setCtx d x).ctx c = if c = d then x else s.ctx c := by
  simp only [State.ctx, State.setCtx_contexts, Vector.getElem_set, BitVec.toNat_inj, eq_comm]

@[simp] theorem State.ctx_setCrc (c d : Index) (v : Byte) :
    (s.setCrc d v).ctx c = if c = d then { s.ctx d with crc := v } else s.ctx c := by
  simp [State.setCrc]

@[simp] theorem State.ctx_taken_command (c : Index) (h : Nat) (w : Word) : (s.taken (.command h w)).ctx c = s.ctx c := rfl
@[simp] theorem State.ctx_taken_resetLine (c : Index) (x : ResetChange) : (s.taken (.resetLine x)).ctx c = s.ctx c := rfl

/-! Built flags. -/

@[simp] theorem State.isBuilt_reply (t : Index) (w : Word) : (s.reply w).isBuilt t = s.isBuilt t := rfl
@[simp] theorem State.isBuilt_respond (t : Index) (d : Byte) : (s.respond d).isBuilt t = s.isBuilt t := rfl
@[simp] theorem State.isBuilt_fail (t : Index) (e : ErrorCode) : (s.fail e).isBuilt t = s.isBuilt t := rfl
@[simp] theorem State.isBuilt_fillSlot (t u : Index) (f : Byte → Byte) : (s.fillSlot u f).isBuilt t = s.isBuilt t := rfl
@[simp] theorem State.isBuilt_setCtx (t c : Index) (x : Context) : (s.setCtx c x).isBuilt t = s.isBuilt t := rfl
@[simp] theorem State.isBuilt_setCrc (t c : Index) (v : Byte) : (s.setCrc c v).isBuilt t = s.isBuilt t := rfl
@[simp] theorem State.isBuilt_serve (t : Index) (h : Nat) : (s.serve h).isBuilt t = s.isBuilt t := rfl

@[simp] theorem State.isBuilt_hardwareReset (t : Index) : s.hardwareReset.isBuilt t = false := by
  simp [State.isBuilt]

@[simp] theorem State.isBuilt_setBuilt (t u : Index) : (s.setBuilt u).isBuilt t = (decide (t = u) || s.isBuilt t) := by
  simp only [State.isBuilt, State.setBuilt_tbuilt, Vector.getElem_set, BitVec.toNat_inj]
  by_cases h : t = u <;> simp [h, eq_comm]

@[simp] theorem State.isBuilt_taken_command (t : Index) (h : Nat) (w : Word) :
    (s.taken (.command h w)).isBuilt t = s.isBuilt t := rfl
@[simp] theorem State.isBuilt_taken_resetLine (t : Index) (x : ResetChange) :
    (s.taken (.resetLine x)).isBuilt t = s.isBuilt t := rfl

/-! Index checks (R133) and the in-use check (R81). -/

theorem State.slotExists_iff (t : Index) : s.slotExists t = true ↔ t.toNat < s.config.nt := by simp [State.slotExists]

theorem State.ctxExists_iff (c : Index) : s.ctxExists c = true ↔ c.toNat < s.config.nd := by simp [State.ctxExists]

theorem State.slotExists_false_iff (t : Index) : s.slotExists t = false ↔ s.config.nt ≤ t.toNat := by
  simp [State.slotExists]

theorem State.ctxExists_false_iff (c : Index) : s.ctxExists c = false ↔ s.config.nd ≤ c.toNat := by
  simp [State.ctxExists]

theorem Config.nd_le (k : Config) : k.nd ≤ 16 := by
  have := k.ndLess1.isLt
  simp only [Config.nd]
  omega

theorem Config.nt_le (k : Config) : k.nt ≤ 16 := by
  have := k.ntLess1.isLt
  simp only [Config.nt]
  omega

/-- R81, word for word. -/
theorem State.tableInUse_iff (t : Index) : s.tableInUse t = true ↔
    ∃ c : Index, c.toNat < s.config.nd ∧ (s.ctx c).bound = true ∧ (s.ctx c).bindt = t := by
  have hnd := Config.nd_le s.config
  simp only [State.tableInUse, List.any_eq_true, List.mem_range, Bool.and_eq_true, beq_iff_eq]
  constructor
  · rintro ⟨n, hn, hb, ht⟩
    refine ⟨BitVec.ofNat 4 n, ?_, hb, ht⟩
    simp only [BitVec.toNat_ofNat]
    omega
  · rintro ⟨c, hc, hb, ht⟩
    exact ⟨c.toNat, hc, by simpa using hb, by simpa using ht⟩

end Sys2Proof.Machine
end

