-- ==== Sys2Proof/Laws/Exec.lean ====
section
/-! SUPPORT. Everything a command can do, said once: the outcomes of each meaning, and from them the ways one command can
change the state. -/

namespace Sys2Proof.Machine

variable {s s' : State}

/-- Everything the kernel's table read can answer: the entry `v XOR b` of the slot, or no value. -/
theorem State.foldByte_eq (t : Index) (v b : Byte) (s : State) : s.foldByte t v b = s.tableRead t (v ^^^ b) := rfl

/-- The ways a command can change the state. A command that fails records its error; one that only reads replies; BUILD
fills a slot no bound context names; BIND binds a context to a built slot; WRITE and RESET change one `CRC`. -/
inductive Effect (i : Instr) (s : State) : State → Prop where
  | failed (e : ErrorCode) : Effect i s (s.fail e)
  | read (d : Byte) : Effect i s (s.respond d)
  | status (h : i = .rdstat) : Effect i s (s.reply (responseWord 0x00#8 (configByte s.config) s.status.word))
  | built (t : Index) (poly : Byte) (h : i = .build t poly) (ht : t.toNat < s.config.nt)
      (hfree : s.tableInUse t = false) :
      Effect i s (((s.fillSlot t (tableEntry poly)).setBuilt t).respond 0x00#8)
  | bound (c t : Index) (h : i = .bind c t) (hc : c.toNat < s.config.nd) (ht : t.toNat < s.config.nt)
      (hbuilt : s.isBuilt t = true) :
      Effect i s ((s.setCtx c { crc := 0x00#8, bindt := t, bound := true }).respond 0x00#8)
  | folded (c : Index) (b x : Byte) (h : i = .write c b) (hc : c.toNat < s.config.nd) (hb : (s.ctx c).bound = true)
      (hx : s.tableRead (s.ctx c).bindt ((s.ctx c).crc ^^^ b) = some x) :
      Effect i s ((s.setCrc c x).respond 0x01#8)
  | cleared (c : Index) (h : i = .reset c) (hc : c.toNat < s.config.nd) (hb : (s.ctx c).bound = true) :
      Effect i s ((s.setCrc c 0x00#8).respond 0x00#8)

/-- A command's next state is one of the effects above. -/
theorem exec_effect {i : Instr} (h : exec i s = .next s') : Effect i s s' := by
  cases i with
  | build t poly =>
    simp only [exec, execBuild] at h
    split_ifs at h with h1 h2 <;> cases h
    · exact .failed _
    · exact .failed _
    · exact .built t poly rfl (by simpa [State.slotExists] using h1) (by simpa using h2)
  | bind c t =>
    simp only [exec, execBind] at h
    split_ifs at h with h1 h2 h3 <;> cases h
    · exact .failed _
    · exact .failed _
    · exact .failed _
    · exact .bound c t rfl (by simpa [State.ctxExists] using h1) (by simpa [State.slotExists] using h2) (by simpa using h3)
  | write c b =>
    simp only [exec, execWrite] at h
    split_ifs at h with h1 h2
    · cases h; exact .failed _
    · cases h; exact .failed _
    · split at h
      · rename_i x hx
        cases h
        exact .folded c b x rfl (by simpa [State.ctxExists] using h1) (by simpa using h2) hx
      · cases h
  | reset c =>
    simp only [exec, execReset] at h
    split_ifs at h with h1 h2 <;> cases h
    · exact .failed _
    · exact .failed _
    · exact .cleared c rfl (by simpa [State.ctxExists] using h1) (by simpa using h2)
  | sum8 c =>
    simp only [exec, execSum8] at h
    split_ifs at h with h1 h2 <;> cases h
    · exact .failed _
    · exact .failed _
    · exact .read _
  | update t v b =>
    simp only [exec, execUpdate] at h
    split_ifs at h with h1 h2
    · cases h; exact .failed _
    · cases h; exact .failed _
    · split at h <;> cases h
      exact .read _
  | tread t i =>
    simp only [exec, execTread] at h
    split_ifs at h with h1 h2
    · cases h; exact .failed _
    · cases h; exact .failed _
    · split at h <;> cases h
      exact .read _
  | size => cases h; exact .read _
  | blksz => cases h; exact .read _
  | rdstat => cases h; exact .status rfl

/-- No command is refused: every arm of `exec` has its meaning. -/
theorem exec_not_refused (i : Instr) (s : State) (r : Refusal) : exec i s ≠ .refused r := by
  intro h
  cases i <;> simp only [exec, execBuild, execBind, execWrite, execReset, execSum8, execUpdate, execTread, execSize,
    execBlksz, execRdstat] at h <;> (try split_ifs at h) <;> (try split at h) <;> cases h

/-- The one stop of a command: a table entry that has no value, read by WRITE, UPDATE or TREAD. -/
theorem exec_fault {i : Instr} {r : Fault} (h : exec i s = .fault r) :
    ∃ t idx, r = .tableEntryNoValue t idx ∧ s.tableRead t idx = none ∧
      (s.isBuilt t = true ∨ ∃ c, (s.ctx c).bound = true ∧ (s.ctx c).bindt = t) := by
  cases i with
  | write c b =>
    simp only [exec, execWrite] at h
    split_ifs at h with h1 h2
    split at h <;> cases h
    rename_i hx
    exact ⟨_, _, rfl, hx, .inr ⟨c, by simpa using h2, rfl⟩⟩
  | update t v b =>
    simp only [exec, execUpdate] at h
    split_ifs at h with h1 h2
    split at h <;> cases h
    rename_i hx
    exact ⟨_, _, rfl, hx, .inl (by simpa using h2)⟩
  | tread t i =>
    simp only [exec, execTread] at h
    split_ifs at h with h1 h2
    split at h <;> cases h
    rename_i hx
    exact ⟨_, _, rfl, hx, .inl (by simpa using h2)⟩
  | build t poly => simp only [exec, execBuild] at h; split_ifs at h
  | bind c t => simp only [exec, execBind] at h; split_ifs at h
  | reset c => simp only [exec, execReset] at h; split_ifs at h
  | sum8 c => simp only [exec, execSum8] at h; split_ifs at h
  | size => cases h
  | blksz => cases h
  | rdstat => cases h

end Sys2Proof.Machine
end

