-- ==== Sys2Proof/Laws/Words.lean ====
section
/-! SUPPORT. The fields of command words and of response words: a field of a word put together from fields is that field,
and a word is its fields put together. -/

namespace Sys2Proof

section Fields

variable (op rsv : BitVec 4) (t c : Index) (v b : Byte)

@[simp] theorem fieldOP_packWord : fieldOP (packWord op rsv t c v b) = op := by
  apply BitVec.eq_of_getLsbD_eq
  intro i hi
  interval_cases i <;> simp [fieldOP, packWord]

@[simp] theorem fieldRSV_packWord : fieldRSV (packWord op rsv t c v b) = rsv := by
  apply BitVec.eq_of_getLsbD_eq
  intro i hi
  interval_cases i <;> simp [fieldRSV, packWord]

@[simp] theorem fieldT_packWord : fieldT (packWord op rsv t c v b) = t := by
  apply BitVec.eq_of_getLsbD_eq
  intro i hi
  interval_cases i <;> simp [fieldT, packWord]

@[simp] theorem fieldC_packWord : fieldC (packWord op rsv t c v b) = c := by
  apply BitVec.eq_of_getLsbD_eq
  intro i hi
  interval_cases i <;> simp [fieldC, packWord]

@[simp] theorem fieldV_packWord : fieldV (packWord op rsv t c v b) = v := by
  apply BitVec.eq_of_getLsbD_eq
  intro i hi
  interval_cases i <;> simp [fieldV, packWord]

@[simp] theorem fieldB_packWord : fieldB (packWord op rsv t c v b) = b := by
  apply BitVec.eq_of_getLsbD_eq
  intro i hi
  interval_cases i <;> simp [fieldB, packWord]

@[simp] theorem fieldOP_and (w x : Word) : fieldOP (w &&& x) = fieldOP w &&& fieldOP x := by
  simp only [fieldOP, BitVec.extractLsb'_and]

@[simp] theorem fieldRSV_and (w x : Word) : fieldRSV (w &&& x) = fieldRSV w &&& fieldRSV x := by
  simp only [fieldRSV, BitVec.extractLsb'_and]

@[simp] theorem fieldT_and (w x : Word) : fieldT (w &&& x) = fieldT w &&& fieldT x := by
  simp only [fieldT, BitVec.extractLsb'_and]

@[simp] theorem fieldC_and (w x : Word) : fieldC (w &&& x) = fieldC w &&& fieldC x := by
  simp only [fieldC, BitVec.extractLsb'_and]

@[simp] theorem fieldV_and (w x : Word) : fieldV (w &&& x) = fieldV w &&& fieldV x := by
  simp only [fieldV, BitVec.extractLsb'_and]

@[simp] theorem fieldB_and (w x : Word) : fieldB (w &&& x) = fieldB w &&& fieldB x := by
  simp only [fieldB, BitVec.extractLsb'_and]

end Fields

/-- A word is its fields put together: no bit lies outside them (R61). -/
theorem packWord_fields (w : Word) :
    packWord (fieldOP w) (fieldRSV w) (fieldT w) (fieldC w) (fieldV w) (fieldB w) = w := by
  apply BitVec.eq_of_getLsbD_eq
  intro i hi
  interval_cases i <;> simp [fieldOP, fieldRSV, fieldT, fieldC, fieldV, fieldB, packWord]

/-- Two words are equal when their fields are. -/
theorem word_eq_iff (w x : Word) : w = x ↔ fieldOP w = fieldOP x ∧ fieldRSV w = fieldRSV x ∧ fieldT w = fieldT x ∧
    fieldC w = fieldC x ∧ fieldV w = fieldV x ∧ fieldB w = fieldB x := by
  refine ⟨fun h => by simp [h], fun ⟨h1, h2, h3, h4, h5, h6⟩ => ?_⟩
  rw [← packWord_fields w, ← packWord_fields x, h1, h2, h3, h4, h5, h6]

namespace Machine

variable (st cfg data : Byte)

@[simp] theorem responseST_responseWord : responseST (responseWord st cfg data) = st := by
  apply BitVec.eq_of_getLsbD_eq
  intro i hi
  interval_cases i <;> simp [responseST, responseWord]

@[simp] theorem responseCFG_responseWord : responseCFG (responseWord st cfg data) = cfg := by
  apply BitVec.eq_of_getLsbD_eq
  intro i hi
  interval_cases i <;> simp [responseCFG, responseWord]

@[simp] theorem responseReserved_responseWord : responseReserved (responseWord st cfg data) = 0 := by
  apply BitVec.eq_of_getLsbD_eq
  intro i hi
  interval_cases i <;> simp [responseReserved, responseWord]

@[simp] theorem responseDATA_responseWord : responseDATA (responseWord st cfg data) = data := by
  apply BitVec.eq_of_getLsbD_eq
  intro i hi
  interval_cases i <;> simp [responseDATA, responseWord]

/-- The response of a command that succeeded is its data byte. -/
theorem responseWord_ok : responseWord 0x00#8 0x00#8 data = data.setWidth 32 := by
  simp [responseWord]

end Machine

end Sys2Proof
end

