-- ==== Sys2Proof/Laws/PerInstr.lean ====
section
/-! SUPPORT. Statements made per command. RowMatched: the word of a command matches the command's own row of the match and
mask table of spec/30_encoding.md R63, whatever its operands. -/

namespace Sys2Proof.Laws.RowMatched

/-- The word of `i` matches a row of the opcode map that bears its name. -/
def Statement (i : Instr) : Prop := ∃ row ∈ opcodeTable, row.mnemonic = i.mnemonic ∧ row.matchesWord (encode i) = true

/-- A word matches a row when each of its fields does. -/
theorem matchesWord_of_fields {w : Word} {r : OpcodeRow}
    (h : fieldOP w &&& fieldOP r.mask = fieldOP r.pattern ∧ fieldRSV w &&& fieldRSV r.mask = fieldRSV r.pattern ∧
      fieldT w &&& fieldT r.mask = fieldT r.pattern ∧ fieldC w &&& fieldC r.mask = fieldC r.pattern ∧
      fieldV w &&& fieldV r.mask = fieldV r.pattern ∧ fieldB w &&& fieldB r.mask = fieldB r.pattern) :
    r.matchesWord w = true := by
  simpa [OpcodeRow.matchesWord, word_eq_iff] using h

/-- The fields of `encode i` against those of a row, field by field. -/
theorem of_row {i : Instr} {r : OpcodeRow} (hm : r ∈ opcodeTable) (hn : r.mnemonic = i.mnemonic)
    (h : fieldOP (encode i) &&& fieldOP r.mask = fieldOP r.pattern ∧
      fieldRSV (encode i) &&& fieldRSV r.mask = fieldRSV r.pattern ∧
      fieldT (encode i) &&& fieldT r.mask = fieldT r.pattern ∧ fieldC (encode i) &&& fieldC r.mask = fieldC r.pattern ∧
      fieldV (encode i) &&& fieldV r.mask = fieldV r.pattern ∧ fieldB (encode i) &&& fieldB r.mask = fieldB r.pattern) :
    Statement i := ⟨r, hm, hn, matchesWord_of_fields h⟩

theorem build (t : Index) (poly : Byte) : Statement (.build t poly) := by
  refine of_row (r := opcodeTable[0]) (List.getElem_mem _) rfl ?_
  simp only [encode, fieldOP_packWord, fieldRSV_packWord, fieldT_packWord, fieldC_packWord, fieldV_packWord, fieldB_packWord]
  simp [opcodeTable, fieldOP, fieldRSV, fieldT, fieldC, fieldV, fieldB]

theorem bind (c t : Index) : Statement (.bind c t) := by
  refine of_row (r := opcodeTable[1]) (List.getElem_mem _) rfl ?_
  simp only [encode, fieldOP_packWord, fieldRSV_packWord, fieldT_packWord, fieldC_packWord, fieldV_packWord, fieldB_packWord]
  simp [opcodeTable, fieldOP, fieldRSV, fieldT, fieldC, fieldV, fieldB]

theorem write (c : Index) (b : Byte) : Statement (.write c b) := by
  refine of_row (r := opcodeTable[2]) (List.getElem_mem _) rfl ?_
  simp only [encode, fieldOP_packWord, fieldRSV_packWord, fieldT_packWord, fieldC_packWord, fieldV_packWord, fieldB_packWord]
  simp [opcodeTable, fieldOP, fieldRSV, fieldT, fieldC, fieldV, fieldB]

theorem reset (c : Index) : Statement (.reset c) := by
  refine of_row (r := opcodeTable[3]) (List.getElem_mem _) rfl ?_
  simp only [encode, fieldOP_packWord, fieldRSV_packWord, fieldT_packWord, fieldC_packWord, fieldV_packWord, fieldB_packWord]
  simp [opcodeTable, fieldOP, fieldRSV, fieldT, fieldC, fieldV, fieldB]

theorem sum8 (c : Index) : Statement (.sum8 c) := by
  refine of_row (r := opcodeTable[4]) (List.getElem_mem _) rfl ?_
  simp only [encode, fieldOP_packWord, fieldRSV_packWord, fieldT_packWord, fieldC_packWord, fieldV_packWord, fieldB_packWord]
  simp [opcodeTable, fieldOP, fieldRSV, fieldT, fieldC, fieldV, fieldB]

theorem update (t : Index) (v b : Byte) : Statement (.update t v b) := by
  refine of_row (r := opcodeTable[5]) (List.getElem_mem _) rfl ?_
  simp only [encode, fieldOP_packWord, fieldRSV_packWord, fieldT_packWord, fieldC_packWord, fieldV_packWord, fieldB_packWord]
  simp [opcodeTable, fieldOP, fieldRSV, fieldT, fieldC, fieldV, fieldB]

theorem tread (t : Index) (idx : Byte) : Statement (.tread t idx) := by
  refine of_row (r := opcodeTable[6]) (List.getElem_mem _) rfl ?_
  simp only [encode, fieldOP_packWord, fieldRSV_packWord, fieldT_packWord, fieldC_packWord, fieldV_packWord, fieldB_packWord]
  simp [opcodeTable, fieldOP, fieldRSV, fieldT, fieldC, fieldV, fieldB]

theorem size : Statement .size := by
  refine of_row (r := opcodeTable[7]) (List.getElem_mem _) rfl ?_
  simp only [encode, fieldOP_packWord, fieldRSV_packWord, fieldT_packWord, fieldC_packWord, fieldV_packWord, fieldB_packWord]
  simp [opcodeTable, fieldOP, fieldRSV, fieldT, fieldC, fieldV, fieldB]

theorem blksz : Statement .blksz := by
  refine of_row (r := opcodeTable[8]) (List.getElem_mem _) rfl ?_
  simp only [encode, fieldOP_packWord, fieldRSV_packWord, fieldT_packWord, fieldC_packWord, fieldV_packWord, fieldB_packWord]
  simp [opcodeTable, fieldOP, fieldRSV, fieldT, fieldC, fieldV, fieldB]

theorem rdstat : Statement .rdstat := by
  refine of_row (r := opcodeTable[9]) (List.getElem_mem _) rfl ?_
  simp only [encode, fieldOP_packWord, fieldRSV_packWord, fieldT_packWord, fieldC_packWord, fieldV_packWord, fieldB_packWord]
  simp [opcodeTable, fieldOP, fieldRSV, fieldT, fieldC, fieldV, fieldB]

end Sys2Proof.Laws.RowMatched
end

