-- ==== Sys2Proof/Laws/Port.lean ====
section
/-! SUPPORT. The port: what can come next, and everything a step can do. -/

namespace Sys2Proof.Machine

variable {s s' : State}

/-- What comes next is one of the sources that wait. -/
theorem pickSource_mem {choice : Nat} {l : List Source} {x : Source} (h : pickSource choice l = some x) : x ∈ l := by
  match l, h with
  | [y], h => simp only [pickSource, Option.some.injEq] at h; simp [h]
  | y :: z :: rest, h => exact List.mem_of_getElem? h

/-- Something comes next exactly when something waits. -/
theorem pickSource_isSome (choice : Nat) (l : List Source) : (pickSource choice l).isSome = !l.isEmpty := by
  match l with
  | [] => rfl
  | [y] => rfl
  | y :: z :: rest =>
    have h : choice % (rest.length + 2) < (y :: z :: rest).length := Nat.mod_lt _ (by simp)
    simp only [pickSource, List.getElem?_eq_getElem h]
    rfl

/-- Any source that waits can be the next one: some choice picks it (R46). -/
theorem pickSource_complete {l : List Source} {x : Source} (h : x ∈ l) : ∃ choice, pickSource choice l = some x := by
  match l, h with
  | [y], h => exact ⟨0, by simp [pickSource, List.mem_singleton.1 h]⟩
  | y :: z :: rest, h =>
    obtain ⟨n, hn, hx⟩ := List.getElem_of_mem h
    have hlen : (y :: z :: rest).length = rest.length + 2 := rfl
    refine ⟨n, ?_⟩
    simp only [pickSource]
    rw [Nat.mod_eq_of_lt (hlen ▸ hn), List.getElem?_eq_getElem hn, hx]

/-- A host waits exactly when its queue is not empty. -/
theorem mem_hostsWaiting {h n : Nat} {q : List (List Word)} :
    Source.host h ∈ hostsWaiting n q ↔ ∃ k w rest, h = n + k ∧ q[k]? = some (w :: rest) := by
  induction q generalizing n with
  | nil => simp [hostsWaiting]
  | cons a r ih =>
    cases a with
    | nil =>
      simp only [hostsWaiting, ih]
      constructor
      · rintro ⟨k, w, rest, rfl, hk⟩
        exact ⟨k + 1, w, rest, by omega, by simpa using hk⟩
      · rintro ⟨k, w, rest, rfl, hk⟩
        cases k with
        | zero => simp at hk
        | succ k => exact ⟨k, w, rest, by omega, by simpa using hk⟩
    | cons w rest =>
      simp only [hostsWaiting, List.mem_cons, Source.host.injEq, ih]
      constructor
      · rintro (rfl | ⟨k, w', rest', rfl, hk⟩)
        · exact ⟨0, w, rest, by omega, by simp⟩
        · exact ⟨k + 1, w', rest', by omega, by simpa using hk⟩
      · rintro ⟨k, w', rest', rfl, hk⟩
        cases k with
        | zero => exact .inl (by omega)
        | succ k => exact .inr ⟨k, w', rest', by omega, by simpa using hk⟩

/-- The reset line is no host. -/
theorem resetLine_not_mem_hostsWaiting {n : Nat} {q : List (List Word)} : Source.resetLine ∉ hostsWaiting n q := by
  induction q generalizing n with
  | nil => simp [hostsWaiting]
  | cons a r ih => cases a <;> simp [hostsWaiting, ih]

/-- A command comes next only from the front of its host's queue. -/
theorem State.nextInput_command {choice h : Nat} {w : Word} (hn : s.nextInput choice = some (.command h w)) :
    ∃ rest, s.hosts[h]? = some (w :: rest) := by
  simp only [State.nextInput] at hn
  split at hn
  · rename_i x hx
    cases x with
    | host k =>
      simp only [State.firstInput] at hn
      split at hn
      · rename_i w' rest hq
        cases hn
        exact ⟨rest, hq⟩
      · cases hn
    | resetLine =>
      simp only [State.firstInput] at hn
      split at hn <;> cases hn
  · cases hn

/-- A change of the reset line comes next only from the front of its coming changes. -/
theorem State.nextInput_resetLine {choice : Nat} {x : ResetChange} (hn : s.nextInput choice = some (.resetLine x)) :
    ∃ rest, s.resetChanges = x :: rest := by
  simp only [State.nextInput] at hn
  split at hn
  · rename_i y hy
    cases y with
    | host k =>
      simp only [State.firstInput] at hn
      split at hn <;> cases hn
    | resetLine =>
      simp only [State.firstInput] at hn
      split at hn
      · rename_i c rest hq
        cases hn
        exact ⟨rest, hq⟩
      · cases hn
  · cases hn

/-- Everything a step can do, for any choice of what comes next. -/
theorem stepWith_cases {choice : Nat} (h : stepWith choice s = .next s') :
    (s.nextInput choice = none ∧ s' = s) ∨
    (∃ k w, s.nextInput choice = some (.command k w) ∧ s.resetHeld = true ∧ s' = s.taken (.command k w)) ∨
    (∃ k w i, s.nextInput choice = some (.command k w) ∧ s.resetHeld = false ∧ decode w = .ok i ∧
      exec i ((s.taken (.command k w)).serve k) = .next s') ∨
    (∃ k w e, s.nextInput choice = some (.command k w) ∧ s.resetHeld = false ∧ decode w = .error e ∧
      s' = ((s.taken (.command k w)).serve k).fail .illegal) ∨
    (s.nextInput choice = some (.resetLine .asserted) ∧
      s' = { (s.taken (.resetLine .asserted)).hardwareReset with resetHeld := true }) ∨
    (s.nextInput choice = some (.resetLine .released) ∧
      s' = { s.taken (.resetLine .released) with resetHeld := false }) := by
  simp only [stepWith] at h
  split at h
  · rename_i x hx
    match x, hx with
    | .command k w, hx =>
      by_cases hr : s.resetHeld = true
      · simp only [deliver, if_pos hr] at h
        cases h
        exact .inr (.inl ⟨k, w, hx, hr, rfl⟩)
      · simp only [deliver, if_neg hr, executeWord] at h
        split at h
        · rename_i i hi
          exact .inr (.inr (.inl ⟨k, w, i, hx, by simpa using hr, hi, h⟩))
        · rename_i e he
          cases h
          exact .inr (.inr (.inr (.inl ⟨k, w, e, hx, by simpa using hr, he, rfl⟩)))
    | .resetLine .asserted, hx => cases h; exact .inr (.inr (.inr (.inr (.inl ⟨hx, rfl⟩))))
    | .resetLine .released, hx => cases h; exact .inr (.inr (.inr (.inr (.inr ⟨hx, rfl⟩))))
  · cases h
    exact .inl ⟨by assumption, rfl⟩

/-- Everything a step can do. -/
theorem step_cases (h : step s = .next s') :
    (s.nextInput (Config.arbiter s.turn) = none ∧ s' = s) ∨
    (∃ k w, s.nextInput (Config.arbiter s.turn) = some (.command k w) ∧ s.resetHeld = true ∧
      s' = s.taken (.command k w)) ∨
    (∃ k w i, s.nextInput (Config.arbiter s.turn) = some (.command k w) ∧ s.resetHeld = false ∧ decode w = .ok i ∧
      exec i ((s.taken (.command k w)).serve k) = .next s') ∨
    (∃ k w e, s.nextInput (Config.arbiter s.turn) = some (.command k w) ∧ s.resetHeld = false ∧
      decode w = .error e ∧ s' = ((s.taken (.command k w)).serve k).fail .illegal) ∨
    (s.nextInput (Config.arbiter s.turn) = some (.resetLine .asserted) ∧
      s' = { (s.taken (.resetLine .asserted)).hardwareReset with resetHeld := true }) ∨
    (s.nextInput (Config.arbiter s.turn) = some (.resetLine .released) ∧
      s' = { s.taken (.resetLine .released) with resetHeld := false }) :=
  stepWith_cases h

/-- Taking a word from a host's queue leaves the number of queues. -/
@[simp] theorem dropFirst_length (h : Nat) (l : List (List Word)) : (dropFirst h l).length = l.length := by
  induction l generalizing h with
  | nil => cases h <;> rfl
  | cons a r ih => cases h <;> simp [dropFirst, ih]

/-- It drops the first word of that host's queue and leaves the others. -/
theorem dropFirst_getElem? (h k : Nat) (l : List (List Word)) :
    (dropFirst h l)[k]? = if k = h then l[k]?.map List.tail else l[k]? := by
  induction l generalizing h k with
  | nil => simp [dropFirst]
  | cons a r ih => cases h <;> cases k <;> simp [dropFirst, ih]

end Sys2Proof.Machine
end

