-- ==== Sys2Proof/Laws/Safety.lean ====
section
/-! SUPPORT. The model's operations in the words claims use, and how a command's outcome depends on what waits at the
port: not at all. -/

namespace Sys2Proof.Machine

variable (s : State)

/-- `Fail(code)` is what claims say of a failure (R136). -/
theorem State.fail_eq (e : ErrorCode) : s.fail e = s.afterFailure e.code.toNat := by cases e <;> rfl

/-- `respond(data)` is what claims say of a success that changes no state (R66). -/
theorem State.respond_eq (d : Byte) : s.respond d = s.afterResponse d := by
  simp only [State.respond, State.reply, State.afterResponse, responseWord_ok]

/-- R81 in its negative form. -/
theorem State.tableInUse_false_iff (t : Index) : s.tableInUse t = false ↔
    ¬ ∃ c : Index, c.toNat < s.config.nd ∧ (s.ctx c).bound = true ∧ (s.ctx c).bindt = t := by
  rw [← State.tableInUse_iff, Bool.not_eq_true]

/-- The state with the outside of the port as in `p`, less the responses. -/
def State.withPortOf (s p : State) : State :=
  { s with
    hosts := p.hosts
    resetChanges := p.resetChanges
    resetHeld := p.resetHeld
    turn := p.turn
    served := p.served }

/-- The same for an outcome. -/
def outcomeWithPortOf (p : State) : Host.Outcome State Fault Refusal → Host.Outcome State Fault Refusal
  | .next u => .next (u.withPortOf p)
  | .fault r => .fault r
  | .refused r => .refused r

/-- No command sees what waits at the port, or which host sent it (R145): its outcome is the same, whatever waits. -/
theorem exec_withPortOf (i : Instr) (p : State) : exec i (s.withPortOf p) = outcomeWithPortOf p (exec i s) := by
  have hs : ∀ t, (s.withPortOf p).slotExists t = s.slotExists t := fun _ => rfl
  have hc : ∀ c, (s.withPortOf p).ctxExists c = s.ctxExists c := fun _ => rfl
  have hb : ∀ t, (s.withPortOf p).isBuilt t = s.isBuilt t := fun _ => rfl
  have hx : ∀ c, (s.withPortOf p).ctx c = s.ctx c := fun _ => rfl
  have hr : ∀ t i, (s.withPortOf p).tableRead t i = s.tableRead t i := fun _ _ => rfl
  have hu : ∀ t, (s.withPortOf p).tableInUse t = s.tableInUse t := fun _ => rfl
  cases i <;> simp only [exec, execBuild, execBind, execWrite, execReset, execSum8, execUpdate, execTread, execSize,
    execBlksz, execRdstat, State.foldByte, hs, hc, hb, hx, hr, hu] <;> (try split_ifs) <;> (try rfl) <;> split <;> rfl

/-- No command word sees what waits at the port (R145). -/
theorem executeWord_withPortOf (w : Word) (p : State) :
    executeWord w (s.withPortOf p) = outcomeWithPortOf p (executeWord w s) := by
  simp only [executeWord]
  split
  · exact exec_withPortOf s _ p
  · rfl

/-- A run of `n + 1` steps is one step and then a run of `n`. -/
theorem run_succ (n : Nat) : Host.Core.run Sys2Proof.core (n + 1) s = andThen (step s) (Host.Core.run Sys2Proof.core n) := by
  simp only [Host.Core.run]
  rw [show Sys2Proof.core.step s = step s from rfl]
  cases step s <;> rfl

/-- What holds of a state and itself, and goes on holding when a step is added, holds along every run. -/
theorem run_induction {P : State → State → Prop} (hrefl : ∀ s, P s s)
    (hstep : ∀ s t u, P s t → step t = .next u → P s u) {n : Nat} {s u : State}
    (h : Host.Core.run Sys2Proof.core n s = .next u) : P s u := by
  have key : ∀ n t, P s t → Host.Core.run Sys2Proof.core n t = .next u → P s u := by
    intro n
    induction n with
    | zero => intro t ht hr; cases hr; exact ht
    | succ n ih =>
      intro t ht hr
      rw [run_succ] at hr
      cases hs : step t with
      | next t' => rw [hs] at hr; exact ih t' (hstep s t t' ht hs) hr
      | fault r => rw [hs] at hr; cases hr
      | refused r => rw [hs] at hr; cases hr
  exact key n s (hrefl s) h

end Sys2Proof.Machine
end

