-- ==== Sys2Proof/Tests/Slice0.lean ====
section
/-! SUPPORT. Tests. Expected values are those of spec/95_test_vectors.md ("2.1" and so on are its sections) or a rule's own
words; and for each statement with hypotheses, states and operands that meet them. -/

namespace Sys2Proof.Tests

set_option Elab.async false

open Sys2Proof Sys2Proof.Machine

/-! Helpers: small states reached by commands from reset. -/

/-- The next state of an outcome, if it has one. -/
def nextState : Host.Outcome State Fault Refusal → Option State
  | .next s => some s
  | .fault _ => none
  | .refused _ => none

/-- The fault of an outcome, if it is one. -/
def faultOf : Host.Outcome State Fault Refusal → Option Fault
  | .next _ => none
  | .fault r => some r
  | .refused _ => none

/-- Why a word decodes to no command. -/
def refusedAs (w : Word) : Option IllegalWord :=
  match decode w with
  | .ok _ => none
  | .error e => some e

/-- The result of a pseudo-instruction, if it went on. -/
def resultOf {α : Type} : Host.Outcome (State × Option α) Fault Refusal → Option (Option α)
  | .next p => some p.2
  | .fault _ => none
  | .refused _ => none

/-- The state after some commands, with the record of responses begun anew. -/
def after (cmds : List Instr) (s : State) : State := { (nextState (execAll cmds s)).getD s with responses := [], served := [] }

/-- The response word of one command word. -/
def responseTo (w : Word) (s : State) : Option Word := (nextState (executeWord w s)).bind fun u => u.responses.getLast?

/-- Slot 0 = T7. -/
@[irreducible] def built : State := after [.build 0 0x07#8] State.reset

/-- Slot 0 = T7, context 1 bound to it, `CRC[1] = 0x97`. -/
@[irreducible] def bound : State := after [.build 0 0x07#8, .bind 1 0, .write 1 0x31#8] State.reset

/-- `bound` once a command has failed first with CTX_UNBOUND. -/
@[irreducible] def failed : State := after [.write 0 0x31#8] bound

/-- `NT = 16`, `ND = 16`, two hosts. -/
def largest : Config := { ntLess1 := 15, ndLess1 := 15, nhostLess1 := 1 }

/-- `NT = 1`, `ND = 4`. -/
def oneSlot : Config := { ntLess1 := 0, ndLess1 := 3, nhostLess1 := 0 }

/-- A state no run reaches: slot 0 is built and context 0 bound to it, and no entry has a value. -/
def emptyBuilt : State :=
  { State.reset with
    tbuilt := State.reset.tbuilt.set 0 true
    contexts := State.reset.contexts.set 0 { crc := 0x00#8, bindt := 0, bound := true } }

/-- `bound` with other hosts' queues, reset line changes and `STATUS`. -/
def boundWith (hosts : List (List Word)) (changes : List ResetChange) (status : Status) : State :=
  { bound with hosts := hosts, resetChanges := changes, status := status }

/-- `bound` with one command to come. -/
def queued (w : Word) : State := boundWith [[w]] [] Status.afterReset

/-- `bound` with a change of the reset line to come. -/
def lineChanging (x : ResetChange) : State := boundWith [[]] [x] Status.afterReset

/-- Slot 0 = T7, context 0 bound to it, two hosts with two WRITE commands each (2.6). -/
@[irreducible] def twoHosts : State :=
  { after [.build 0 0x07#8, .bind 0 0] (State.resetWith { Config.reference with nhostLess1 := 1 }) with
    hosts := [[0x30000031#32, 0x30000032#32], [0x30000033#32, 0x30000034#32]] }

/-! Well-formedness: each check refuses a line whose one operand does not fit (R69). -/

theorem test_wellFormed_accepts : (AsmLine.update 15 255 255).wellFormed = true ∧ (AsmLine.bind 15 15).wellFormed = true := by
  decide

theorem test_illFormed_build_t : (AsmLine.build 16 0).wellFormed = false := by decide
theorem test_illFormed_build_poly : (AsmLine.build 0 256).wellFormed = false := by decide
theorem test_illFormed_bind_c : (AsmLine.bind 16 0).wellFormed = false := by decide
theorem test_illFormed_bind_t : (AsmLine.bind 0 16).wellFormed = false := by decide
theorem test_illFormed_write_c : (AsmLine.write 16 0).wellFormed = false := by decide
theorem test_illFormed_write_byte : (AsmLine.write 0 256).wellFormed = false := by decide
theorem test_illFormed_reset_c : (AsmLine.reset 16).wellFormed = false := by decide
theorem test_illFormed_sum8_c : (AsmLine.sum8 16).wellFormed = false := by decide
theorem test_illFormed_update_t : (AsmLine.update 16 0 0).wellFormed = false := by decide
theorem test_illFormed_update_current : (AsmLine.update 0 256 0).wellFormed = false := by decide
theorem test_illFormed_update_byte : (AsmLine.update 0 0 256).wellFormed = false := by decide
theorem test_illFormed_tread_t : (AsmLine.tread 16 0).wellFormed = false := by decide
theorem test_illFormed_tread_index : (AsmLine.tread 0 256).wellFormed = false := by decide

/-! Decoding: each command's word written bit by bit, OP RSV T C V B (R61, R63), and illegal words (R132, 2.5). -/

theorem test_decode_build : decode 0b0001_0000_1101_0000_00000000_10011011#32 = .ok (.build 0xD#4 0x9B#8) := by decide
theorem test_decode_bind : decode 0b0010_0000_0001_1110_00000000_00000000#32 = .ok (.bind 0xE#4 0x1#4) := by decide
theorem test_decode_write : decode 0b0011_0000_0000_0111_00000000_10100101#32 = .ok (.write 0x7#4 0xA5#8) := by decide
theorem test_decode_reset : decode 0b0100_0000_0000_1000_00000000_00000000#32 = .ok (.reset 0x8#4) := by decide
theorem test_decode_sum8 : decode 0b0101_0000_0000_1011_00000000_00000000#32 = .ok (.sum8 0xB#4) := by decide
theorem test_decode_update : decode 0b0110_0000_0010_0000_11110100_00001101#32 = .ok (.update 0x2#4 0xF4#8 0x0D#8) := by
  decide
theorem test_decode_tread : decode 0b0111_0000_1111_0000_00000000_10000000#32 = .ok (.tread 0xF#4 0x80#8) := by decide
theorem test_decode_size : decode 0b1000_0000_0000_0000_00000000_00000000#32 = .ok .size := by decide
theorem test_decode_blksz : decode 0b1001_0000_0000_0000_00000000_00000000#32 = .ok .blksz := by decide
theorem test_decode_rdstat : decode 0b1010_0000_0000_0000_00000000_00000000#32 = .ok .rdstat := by decide

/-- The other direction, on the same bit by bit words. -/
theorem test_encode_words :
    encode (.build 0xD#4 0x9B#8) = 0b0001_0000_1101_0000_00000000_10011011#32 ∧
    encode (.bind 0xE#4 0x1#4) = 0b0010_0000_0001_1110_00000000_00000000#32 ∧
    encode (.write 0x7#4 0xA5#8) = 0b0011_0000_0000_0111_00000000_10100101#32 ∧
    encode (.reset 0x8#4) = 0b0100_0000_0000_1000_00000000_00000000#32 ∧
    encode (.sum8 0xB#4) = 0b0101_0000_0000_1011_00000000_00000000#32 ∧
    encode (.update 0x2#4 0xF4#8 0x0D#8) = 0b0110_0000_0010_0000_11110100_00001101#32 ∧
    encode (.tread 0xF#4 0x80#8) = 0b0111_0000_1111_0000_00000000_10000000#32 := by decide

theorem test_illegal_opcodes :
    decode 0x00000000#32 = .error (.opcode 0x0#4) ∧ decode 0xB0000000#32 = .error (.opcode 0xB#4) ∧
    decode 0xF0000000#32 = .error (.opcode 0xF#4) := by decide

theorem test_illegal_reserved :
    decode 0x11000007#32 = .error (.reserved 0x1#4) ∧ decode 0x1F000007#32 = .error (.reserved 0xF#4) ∧
    decode 0x31000031#32 = .error (.reserved 0x1#4) := by decide

/-- One word for each unused field of each command, with that field alone not zero: every clause of
`Obligations.IllegalWordsAreNotExecuted`. -/
theorem test_illegal_unusedFields :
    [0x10010007#32, 0x10000107#32, 0x20000100#32, 0x20010001#32, 0x30110031#32, 0x30008031#32, 0x40100000#32,
      0x40000100#32, 0x40000001#32, 0x50800000#32, 0x50000100#32, 0x50000080#32, 0x60010031#32, 0x70080000#32,
      0x70000180#32, 0x80000001#32, 0x80100000#32, 0x90000100#32, 0x90010000#32, 0xA0100000#32, 0xA0000001#32].all
      (fun w => refusedAs w == some .unusedField) = true := by decide +kernel

/-- Lines of text and their words (R69; words as in 2.1 to 2.4). -/
theorem test_assembler_text :
    assembleText "BUILD 0, 0x07 ; T7".toList = some 0x10000007#32 ∧ assembleText "BIND 1, 0".toList = some 0x20010000#32 ∧
    assembleText "WRITE 1, 49".toList = some 0x30010031#32 ∧ assembleText "RESET 1".toList = some 0x40010000#32 ∧
    assembleText "SUM8 1".toList = some 0x50010000#32 ∧ assembleText "UPDATE 0, 0x5A, 0xA5".toList = some 0x60005AA5#32 ∧
    assembleText "TREAD 0, 128".toList = some 0x70000080#32 ∧ assembleText "SIZE".toList = some 0x80000000#32 ∧
    assembleText "BLKSZ".toList = some 0x90000000#32 ∧ assembleText "RDSTAT".toList = some 0xA0000000#32 := by
  decide +kernel

/-- The assembler refuses an operand that does not fit, a missing or extra operand, and an unknown mnemonic. -/
theorem test_assembler_refuses :
    assembleText "BUILD 16, 0".toList = none ∧ assembleText "BUILD 0, 256".toList = none ∧
    assembleText "BIND 1".toList = none ∧ assembleText "SIZE 0".toList = none ∧ assembleText "LOAD 0, 0".toList = none := by
  decide +kernel

/-- The numbering of spec/opcode_table.json, on words of a row with both operands set. -/
theorem test_decodeTableWord :
    decodeTableWord 32 0x6010F40D = some (.update 1 0xF4#8 0x0D#8) ∧ decodeTableWord 32 0x00000000 = none := by decide

/-! One command each (2.1 to 2.4). -/

theorem test_build :
    responseTo 0x10000007#32 State.reset = some 0x00000000#32 ∧ built.isBuilt 0 = true ∧ built.isBuilt 1 = false ∧
    built.tableRead 0 0x31#8 = some 0x97#8 ∧ built.tableRead 0 0x80#8 = some 0x89#8 ∧
    built.tableRead 0 0xFF#8 = some 0xF3#8 ∧ built.tableRead 1 0x00#8 = none := by decide +kernel

/-- Entries of other polynomials: the corner cases of 2.1. -/
theorem test_tableEntry :
    tableEntry 0x31#8 0x80#8 = 0x7A#8 ∧ tableEntry 0x80#8 0x03#8 = 0x00#8 ∧ tableEntry 0xFF#8 0x02#8 = 0x01#8 ∧
    tableEntry 0x01#8 0xFF#8 = 0xFF#8 ∧ tableEntry 0x9B#8 0x31#8 = 0xCD#8 ∧ tableEntry 0xD5#8 0xFF#8 = 0xF9#8 := by
  decide +kernel

theorem test_build_errors :
    responseTo 0x10200007#32 State.reset = some 0x02000000#32 ∧ responseTo 0x10F00007#32 State.reset = some 0x02000000#32 ∧
    responseTo 0x10000007#32 bound = some 0x05000000#32 ∧ responseTo 0x10010007#32 State.reset = some 0x01000000#32 := by
  decide +kernel

theorem test_tread :
    responseTo 0x70000080#32 built = some 0x00000089#32 ∧ responseTo 0x700000FF#32 built = some 0x000000F3#32 := by
  decide +kernel

theorem test_tread_errors :
    responseTo 0x70000080#32 State.reset = some 0x03000000#32 ∧ responseTo 0x70000180#32 built = some 0x01000000#32 := by
  decide +kernel

theorem test_update :
    responseTo 0x60009732#32 built = some 0x00000072#32 ∧ responseTo 0x60005AA5#32 built = some 0x000000F3#32 := by
  decide +kernel

theorem test_update_errors :
    responseTo 0x6010F400#32 built = some 0x03000000#32 ∧ responseTo 0x60F0FFFF#32 built = some 0x02000000#32 := by
  decide +kernel

theorem test_bind :
    responseTo 0x20010000#32 built = some 0x00000000#32 ∧
    (after [.bind 1 0] built).ctx 1 = { crc := 0x00#8, bindt := 0, bound := true } ∧
    ((after [.build 1 0x31#8, .bind 1 1] bound).ctx 1) = { crc := 0x00#8, bindt := 1, bound := true } := by decide +kernel

/-- The index checks come before the built check, and the context before the slot (2.5). -/
theorem test_bind_priority :
    responseTo 0x20040000#32 State.reset = some 0x02000000#32 ∧ responseTo 0x20500000#32 State.reset = some 0x02000000#32 ∧
    responseTo 0x20010000#32 State.reset = some 0x03000000#32 ∧ responseTo 0x20030000#32 built = some 0x02000000#32 := by
  decide +kernel

theorem test_write :
    responseTo 0x30010097#32 bound = some 0x00000001#32 ∧ (bound.ctx 1).crc = 0x97#8 ∧
    ((after [.write 1 0x97#8] bound).ctx 1).crc = 0x00#8 := by decide +kernel

theorem test_write_unbound :
    responseTo 0x30000031#32 State.reset = some 0x04000000#32 ∧ (after [.write 0 0x31#8] State.reset).status.word = 0x84#8 := by
  decide +kernel

theorem test_reset :
    responseTo 0x40010000#32 bound = some 0x00000000#32 ∧
    (after [.reset 1] bound).ctx 1 = { crc := 0x00#8, bindt := 0, bound := true } := by decide +kernel

theorem test_reset_unbound : responseTo 0x40000000#32 State.reset = some 0x04000000#32 := by decide +kernel

theorem test_sum8 : responseTo 0x50010000#32 bound = some 0x00000097#32 := by decide +kernel

theorem test_sum8_unbound : responseTo 0x50000000#32 State.reset = some 0x04000000#32 := by decide +kernel

theorem test_size : responseTo 0x80000000#32 State.reset = some 0x00000001#32 := by decide +kernel

theorem test_blksz : responseTo 0x90000000#32 State.reset = some 0x00000001#32 := by decide +kernel

theorem test_rdstat :
    responseTo 0xA0000000#32 State.reset = some 0x00110000#32 ∧
    responseTo 0xA0000000#32 (State.resetWith oneSlot) = some 0x00300000#32 := by decide +kernel

/-- The first failure stays through a later one (P4, 2.4). -/
theorem test_status_sticky : responseTo 0xA0000000#32 (after [.bind 3 0] failed) = some 0x00110084#32 := by decide +kernel

/-- Two orders of the four commands of 2.6: the free choices decide, and the results are the two of the table. -/
theorem test_interleavings :
    ((nextState (stepWith 0 twoHosts)).bind fun s1 => (nextState (stepWith 0 s1)).map fun s2 => (s2.ctx 0).crc) =
      some 0x72#8 ∧
    ((nextState (stepWith 0 twoHosts)).bind fun s1 => (nextState (stepWith 1 s1)).map fun s2 => s2.served) =
      some [0, 1] := by decide +kernel

/-- SUMAPPEND as in W2, on the digest value 0x97. -/
theorem test_sumAppend : resultOf (sumAppend 1 [0xAA#8, 0xBB#8] bound) = some (some [0xAA#8, 0xBB#8, 0x97#8]) := by
  decide +kernel

/-! States that meet the hypotheses of the statements. -/

theorem bound_table_below : ∀ cell ∈ bound.table, cell.1 < 256 := by decide +kernel

theorem bound_record : bound.responses = [] ∧ bound.served = [] := by decide +kernel

theorem bound_config : bound.config = Config.reference := by decide +kernel

theorem bound_not_held : bound.resetHeld = false := by decide +kernel

theorem bound_built_slot : ∀ t, bound.isBuilt t = true → t = 0 := by decide +kernel

theorem bound_contexts : bound.contexts =
    (Vector.replicate 16 Context.afterReset).set 1 { crc := 0x97#8, bindt := 0, bound := true } := by decide +kernel

theorem bound_context (c : Index) : bound.ctx c =
    if c = 1 then { crc := 0x97#8, bindt := 0, bound := true } else Context.afterReset := by
  revert c; decide +kernel

/-- `bound` with other hosts' queues, reset line changes and `STATUS` meets the invariant. -/
theorem bound_inv (hosts : List (List Word)) (changes : List ResetChange) (status : Status)
    (hs : (status.err = false → status.ecode = 0x0#3) ∧
      (status.err = true → 1 ≤ status.ecode.toNat ∧ status.ecode.toNat ≤ 5))
    (hq : hosts.length = 1) : (boundWith hosts changes status).Inv := by
  have hresp : (boundWith hosts changes status).responses = [] := bound_record.1
  have hserved : (boundWith hosts changes status).served = [] := bound_record.2
  have htab : (boundWith hosts changes status).table = bound.table := rfl
  have hcfg : (boundWith hosts changes status).config = Config.reference := bound_config
  have hread : ∀ t i, (boundWith hosts changes status).tableRead t i = bound.tableRead t i := fun _ _ => rfl
  have hb : ∀ t, (boundWith hosts changes status).isBuilt t = bound.isBuilt t := fun _ => rfl
  have hc : ∀ c, (boundWith hosts changes status).ctx c = bound.ctx c := fun _ => rfl
  have hheld : (boundWith hosts changes status).resetHeld = false := bound_not_held
  refine ⟨?_, ?_, ?_, ?_, ?_, ?_, ?_, ?_, hs, ?_, by rw [hresp]; nofun, by rw [hserved, hresp]; rfl, ?_⟩
  · rw [htab]; decide +kernel
  · rw [htab, hcfg]; intro cell hm; exact Nat.lt_of_lt_of_le (bound_table_below cell hm) (by decide)
  · intro t ht
    rw [bound_built_slot t (hb t ▸ ht)]
    refine ⟨0x07#8, fun i => ?_⟩
    rw [hread]; revert i; decide +kernel
  · intro t ht i
    rw [State.tableRead, htab]
    refine Memory.read_none_of_not_mem fun cell hm heq => ?_
    have hlt := bound_table_below cell hm
    have ht0 : t ≠ 0 := by rintro rfl; rw [hb] at ht; exact absurd ht (by decide +kernel)
    have : 1 ≤ t.toNat := Nat.one_le_iff_ne_zero.2 fun h0 => ht0 (BitVec.eq_of_toNat_eq h0)
    rw [heq, entryAddress] at hlt
    omega
  · intro t ht; rw [bound_built_slot t (hb t ▸ ht), hcfg]; decide
  · intro c hc'; rw [hc, bound_context] at hc'; rw [hcfg]
    by_cases h1 : c = 1
    · subst h1; decide
    · rw [if_neg h1] at hc'; cases hc'
  · intro c hc'; rw [hc, bound_context] at hc' ⊢
    by_cases h1 : c = 1
    · rw [if_pos h1, hcfg, hb]; exact ⟨by decide, by decide +kernel⟩
    · rw [if_neg h1] at hc'; cases hc'
  · intro c hc'; rw [hc, bound_context] at hc' ⊢
    by_cases h1 : c = 1
    · rw [if_pos h1] at hc'; cases hc'
    · rw [if_neg h1]
  · rw [hcfg]; exact hq
  · intro hh; rw [hheld] at hh; cases hh

/-! Encoding and decoding. -/

theorem test_witness_EncodeOfDecode : decode 0x6FF0FFFF#32 ≠ .ok .size ∧ decode 0x60F0FFFF#32 = .ok (.update 15 0xFF#8 0xFF#8) := by
  decide

/-! The step and the port. -/

/-- A legal and an illegal word come next at the port; `PlacedWordRunsNext` needs the first alone. -/
theorem test_witness_StepRunsDecodedCommand :
    (queued 0x50010000#32).nextInput (Config.arbiter (queued 0x50010000#32).turn) = some (.command 0 0x50010000#32) ∧
    (queued 0x50010000#32).resetHeld = false ∧ decode 0x50010000#32 = .ok (.sum8 1) ∧
    (queued 0xB0000000#32).nextInput (Config.arbiter (queued 0xB0000000#32).turn) = some (.command 0 0xB0000000#32) ∧
    (queued 0xB0000000#32).resetHeld = false ∧ decode 0xB0000000#32 = .error (.opcode 0xB) := by decide +kernel

/-- The step runs what is placed, with its response and its effect. -/
theorem test_placed_word_runs :
    ((nextState (step (State.reset.withFetchWord 32 0x10000007))).map fun u =>
      (u.responses, u.tableRead 0 0x80#8, u.served, u.hosts)) = some ([0x00000000#32], some 0x89#8, [0], [[]]) := by
  decide +kernel

theorem test_witness_IdleEngineHoldsState : (∀ q ∈ State.reset.hosts, q = []) ∧ State.reset.resetChanges = [] := by decide

/-- Both hosts' words and the reset line's change can come next, by some choice; at reset nothing can. -/
theorem test_witness_EveryHostOrderAdmitted :
    twoHosts.nextInput 0 = some (.command 0 0x30000031#32) ∧ twoHosts.nextInput 1 = some (.command 1 0x30000033#32) ∧
    twoHosts.hosts[1]? = some [0x30000033#32, 0x30000034#32] ∧
    (lineChanging .asserted).nextInput 0 = some (.resetLine .asserted) ∧ State.reset.nextInput 0 = none := by
  decide +kernel

theorem test_witness_RunIsSomeInterleaving :
    (queued 0x50010000#32).resetChanges = [] ∧ (queued 0x50010000#32).resetHeld = false ∧
    (nextState (Host.Core.run Sys2Proof.core 1 (queued 0x50010000#32))).isSome = true := by decide +kernel

theorem test_witness_OneHostCommandsRunInOrder :
    (boundWith [[.sum8 1, .reset 1].map encode] [] Status.afterReset).hosts = [[.sum8 1, .reset 1].map encode] ∧
    (boundWith [[.sum8 1, .reset 1].map encode] [] Status.afterReset).resetChanges = [] ∧
    (boundWith [[.sum8 1, .reset 1].map encode] [] Status.afterReset).resetHeld = false ∧
    (nextState (execAll [.sum8 1, .reset 1] (boundWith [[.sum8 1, .reset 1].map encode] [] Status.afterReset))).isSome =
      true := by decide +kernel

/-! Reset. -/

theorem test_witness_HardwareResetValues :
    (lineChanging .asserted).nextInput (Config.arbiter (lineChanging .asserted).turn) = some (.resetLine .asserted) ∧
    (lineChanging .asserted).isBuilt 0 = true := by decide +kernel

/-- What that step leaves: nothing of what `bound` held. -/
theorem test_reset_line :
    ((nextState (step (lineChanging .asserted))).map fun u => (u.table, u.isBuilt 0, u.ctx 1, u.resetHeld)) =
      some ([], false, Context.afterReset, true) := by decide +kernel

theorem test_witness_CommandDuringResetIsDropped :
    ({ queued 0x80000000#32 with resetHeld := true }.nextInput (Config.arbiter (queued 0x80000000#32).turn)) =
      some (.command 0 0x80000000#32) ∧
    (lineChanging .released).nextInput (Config.arbiter (lineChanging .released).turn) = some (.resetLine .released) := by
  decide +kernel

theorem test_witness_FreshEngineNeedsBoot :
    (15#4).toNat < largest.nt ∧ (15#4).toNat < largest.nd ∧ (0#4).toNat < oneSlot.nt ∧ (3#4).toNat < oneSlot.nd := by
  decide

/-! The table builder. -/

/-- Each clause of `BuildRule`, at a slot number equal to `NT` and one below it. -/
theorem test_witness_BuildRule :
    (0x10F000FF#32).extractLsb' 28 4 = 0x1#4 ∧ 0x10F000FF#32 &&& 0xFF0FFF00#32 = 0x10000000#32 ∧
    0x10000107#32 &&& 0xFF0FFF00#32 ≠ 0x10000000#32 ∧ bound.config.nt ≤ (2#4).toNat ∧
    ((0#4).toNat < bound.config.nt ∧ (1#4).toNat < bound.config.nd ∧ (bound.ctx 1).bound = true ∧ (bound.ctx 1).bindt = 0) ∧
    ((1#4).toNat < bound.config.nt ∧
      ¬ ∃ c : Index, c.toNat < bound.config.nd ∧ (bound.ctx c).bound = true ∧ (bound.ctx c).bindt = 1) := by
  decide +kernel

theorem test_witness_BuiltTableAlgebra :
    (1#4).toNat < bound.config.nt ∧ bound.tableInUse 1 = false ∧
    (15#4).toNat < (State.resetWith largest).config.nt ∧ (State.resetWith largest).tableInUse 15 = false := by
  decide +kernel

theorem test_witness_RebuildReplacesTable :
    (0#4).toNat < built.config.nt ∧ built.isBuilt 0 = true ∧ built.tableInUse 0 = false ∧
    (nextState (execAll [.build 1 0x07#8, .bind 0 0, .tread 0 0x01#8] (after [.build 0 0x31#8] built))).isSome = true := by
  decide +kernel

theorem test_witness_RebuildReplacesTable_between :
    ∀ p, Instr.build 0 p ∉ [.build 1 0x07#8, .bind 0 0, .tread 0 0x01#8] := by intro p; simp

theorem test_witness_BuildDependsOnPolynomialOnly :
    (0#4).toNat < built.config.nt ∧ built.tableInUse 0 = false ∧ (1#4).toNat < bound.config.nt ∧
    bound.tableInUse 1 = false := by decide +kernel

theorem test_witness_SlotWriteIsItsTableWrites : Memory.wf built.table ∧ Memory.wf State.reset.table := by decide +kernel

/-- The same bytes written one by one and at once, over a table that is there, at both ends of the slot. -/
theorem test_slot_write :
    (tableWrites 0 (tableEntry 0x31#8) 256 built.table).head? = some (0, 0x00#8) ∧
    Memory.read 255 (tableWrites 0 (tableEntry 0x31#8) 256 built.table) = some 0xAC#8 ∧
    Memory.read 255 (Memory.writeSlot 0 (tableEntry 0x31#8) built.table) = some 0xAC#8 ∧
    Memory.read 256 (Memory.writeSlot 0 (tableEntry 0x31#8) built.table) = none := by decide +kernel

/-- Each clause of `TreadRule` and `UpdateRule`. -/
theorem test_witness_TreadRule_UpdateRule :
    (0x70F000FF#32).extractLsb' 28 4 = 0x7#4 ∧ (0x60F0FFFF#32).extractLsb' 28 4 = 0x6#4 ∧
    bound.config.nt ≤ (2#4).toNat ∧ ((1#4).toNat < bound.config.nt ∧ bound.isBuilt 1 = false) ∧
    ((0#4).toNat < bound.config.nt ∧ bound.isBuilt 0 = true ∧ bound.tableRead 0 0xFF#8 = some 0xF3#8 ∧
      bound.tableRead 0 (0x5A#8 ^^^ 0xA5#8) = some 0xF3#8) := by decide +kernel

/-! The kernel and the digest. -/

/-- The last clause of `UpdateRule`, `ChecksumIsFoldFromZero` and `WriteNFoldsAndCounts`: a built slot whose entries are T7. -/
theorem test_witness_folds :
    (0#4).toNat < bound.config.nt ∧ bound.isBuilt 0 = true ∧ (1#4).toNat < bound.config.nd ∧ (bound.ctx 1).bound = true ∧
    (bound.ctx 1).bindt = 0 ∧ ∀ i, bound.tableRead 0 i = some (tableEntry 0x07#8 i) := by decide +kernel

/-- Empty data and the data of S8, on the one-shot checksum (S3, S8). -/
theorem test_checksum :
    resultOf (checksum 0 [] built) = some (some 0x00#8) ∧
    resultOf (checksum 0 [0x31#8, 0x32#8, 0x33#8, 0x34#8] built) = some (some 0xC2#8) := by decide +kernel

/-- WRITEN of 2.3, and of no data: the count is the number of bytes. -/
theorem test_writeN :
    resultOf (writeN 1 [0x31#8, 0x32#8, 0x33#8] bound) = some (some 3) ∧ resultOf (writeN 1 [] bound) = some (some 0) ∧
    resultOf (writeN 0 [0x31#8] bound) = some none := by decide +kernel

theorem test_witness_DigestAgreesWithOneShot :
    (queued 0x80000000#32).Inv ∧ (1#4).toNat < (queued 0x80000000#32).config.nd ∧
    (0#4).toNat < (queued 0x80000000#32).config.nt ∧ (queued 0x80000000#32).isBuilt 0 = true ∧
    ((queued 0x80000000#32).ctx 1).bound = true :=
  ⟨bound_inv _ _ _ (by decide) rfl, by decide +kernel⟩

/-- Each clause of `BindRule`, at a context equal to `ND` and a slot equal to `NT`; and `RebindStartsNewDigest`, with the
other slot built. -/
theorem test_witness_BindRule :
    (0x20FF0000#32).extractLsb' 28 4 = 0x2#4 ∧ bound.config.nd ≤ (2#4).toNat ∧
    ((1#4).toNat < bound.config.nd ∧ bound.config.nt ≤ (2#4).toNat) ∧
    ((1#4).toNat < bound.config.nd ∧ (1#4).toNat < bound.config.nt ∧ bound.isBuilt 1 = false) ∧
    ((1#4).toNat < bound.config.nd ∧ (0#4).toNat < bound.config.nt ∧ bound.isBuilt 0 = true) := by decide +kernel

theorem test_witness_RebindStartsNewDigest :
    (1#4).toNat < (after [.build 1 0x31#8] bound).config.nd ∧ (1#4).toNat < (after [.build 1 0x31#8] bound).config.nt ∧
    (after [.build 1 0x31#8] bound).isBuilt 1 = true ∧ ((after [.build 1 0x31#8] bound).ctx 1).bound = true ∧
    ((after [.build 1 0x31#8] bound).ctx 1).bindt ≠ 1 ∧
    (∀ d : Index, d ≠ 1 → ¬ (((after [.build 1 0x31#8] bound).ctx d).bound = true ∧
      ((after [.build 1 0x31#8] bound).ctx d).bindt = ((after [.build 1 0x31#8] bound).ctx 1).bindt)) := by
  decide +kernel

/-- Each clause of `WriteRule`, `ResetRule` and `Sum8Rule`: no such context, an unbound one, a bound one. -/
theorem test_witness_WriteRule_ResetRule_Sum8Rule :
    (0x300F00FF#32).extractLsb' 28 4 = 0x3#4 ∧ (0x400F0000#32).extractLsb' 28 4 = 0x4#4 ∧
    (0x500F0000#32).extractLsb' 28 4 = 0x5#4 ∧ bound.config.nd ≤ (2#4).toNat ∧
    ((0#4).toNat < bound.config.nd ∧ (bound.ctx 0).bound = false) ∧
    ((1#4).toNat < bound.config.nd ∧ (bound.ctx 1).bound = true ∧
      bound.tableRead (bound.ctx 1).bindt ((bound.ctx 1).crc ^^^ 0x97#8) = some 0x00#8) := by decide +kernel

/-- `ResetIsFreshBind`, and the clauses of `WriteRule`, `TreadRule` and `UpdateRule` under the invariant. -/
theorem test_witness_ResetIsFreshBind :
    (queued 0x80000000#32).Inv ∧ ((queued 0x80000000#32).ctx 1).bound = true ∧ (queued 0x80000000#32).isBuilt 0 = true :=
  ⟨bound_inv _ _ _ (by decide) rfl, by decide +kernel⟩

theorem test_witness_SumAppend : (1#4).toNat < bound.config.nd ∧ (bound.ctx 1).bound = true := by decide +kernel

/-! Status and errors. -/

theorem test_witness_SizeRule_BlkszRule_RdstatRule :
    (0x80000001#32).extractLsb' 28 4 = 0x8#4 ∧ (0x90000100#32).extractLsb' 28 4 = 0x9#4 ∧
    (0xA0100000#32).extractLsb' 28 4 = 0xA#4 ∧ (0xA0000000#32).extractLsb' 28 4 = 0xA#4 := by decide

theorem test_witness_OnlyRdstatReadsStatus :
    (Instr.sum8 1) ≠ .rdstat ∧ (nextState (exec (.sum8 1) failed)).isSome = true ∧ failed.status ≠ Status.afterReset := by
  decide +kernel

theorem test_witness_ConfigurationIsConstant :
    (nextState (Host.Core.run Sys2Proof.core 2 (queued 0x80000000#32))).isSome = true := by decide +kernel

/-- `FirstFailingCheckGivesError`: every error of R131, and none. -/
theorem test_witness_FirstFailingCheckGivesError :
    refusedAs 0x31000031#32 = some (.reserved 0x1#4) ∧ bound.firstError (.bind 2 2) = some .badIndex ∧
    bound.firstError (.bind 1 1) = some .tableUnbuilt ∧ bound.firstError (.write 0 0x31#8) = some .ctxUnbound ∧
    bound.firstError (.build 0 0x07#8) = some .tableInUse ∧ bound.firstError (.sum8 1) = none ∧
    (nextState (exec (.sum8 1) bound)).isSome = true := by decide +kernel

/-- `BadIndexBeforeStorage`, both ways a number can be out of range, and a configuration where none can. -/
theorem test_witness_BadIndexBeforeStorage :
    (usedT (.tread 2 0x00#8) = some 2 ∧ bound.config.nt ≤ (2#4).toNat) ∧
    (usedC (.sum8 2) = some 2 ∧ bound.config.nd ≤ (2#4).toNat) ∧ (State.resetWith largest).config.nt = 16 ∧
    (State.resetWith largest).config.nd = 16 := by decide +kernel

/-- `NoDataValueCausesError`: each of its four commands failing, with codes 2 to 5. -/
theorem test_witness_NoDataValueCausesError :
    nextState (exec (.build 0 0x07#8) bound) = some (bound.afterFailure 5) ∧
    nextState (exec (.write 0 0x31#8) bound) = some (bound.afterFailure 4) ∧
    nextState (exec (.update 1 0x00#8 0x31#8) bound) = some (bound.afterFailure 3) ∧
    nextState (exec (.tread 2 0x31#8) bound) = some (bound.afterFailure 2) := by decide +kernel

/-- `FailuresArePrecise`: a first failure and, with another code, a later one, which leaves everything. -/
theorem test_witness_FailuresArePrecise :
    nextState (executeWord 0x30000031#32 bound) = some (bound.afterFailure 4) ∧
    (bound.afterFailure 4).responses = bound.responses ++ [0x04000000#32] ∧ responseST 0x04000000#32 ≠ 0x00#8 ∧
    nextState (executeWord 0xB0000000#32 failed) = some { failed with responses := [0x01000000#32] } := by decide +kernel

theorem test_witness_StatusIsStickyUntilReset :
    failed.status.err = true ∧ failed.status.ecode = 4#3 ∧
    (nextState (executeWord 0xB0000000#32 failed)).map (fun u => u.responses) = some [0x01000000#32] ∧
    responseST 0x01000000#32 ≠ 0x00#8 ∧
    (nextState (step { failed with hosts := [[0xB0000000#32]] })).isSome = true ∧
    (nextState (step { failed with resetChanges := [.asserted] })).isSome = true := by decide +kernel

theorem test_witness_OneResponsePerCommand :
    (nextState (executeWord 0xA0000000#32 failed)).isSome = true ∧ (nextState (executeWord 0xF0000000#32 failed)).isSome = true := by
  decide +kernel

theorem test_witness_FailedWriteNHasNoResult : bound.firstError (.write 0 0x31#8) ≠ none := by decide +kernel

theorem test_witness_EntryWithoutValueStops :
    (0#4).toNat < emptyBuilt.config.nt ∧ (0#4).toNat < emptyBuilt.config.nd ∧ emptyBuilt.isBuilt 0 = true ∧
    (emptyBuilt.ctx 0).bound = true ∧ emptyBuilt.tableRead 0 0x31#8 = none ∧
    emptyBuilt.tableRead (emptyBuilt.ctx 0).bindt ((emptyBuilt.ctx 0).crc ^^^ 0x31#8) = none ∧
    faultOf (exec (.write 0 0x31#8) emptyBuilt) = some (.tableEntryNoValue 0 0x31#8) := by decide +kernel

/-! Whole-machine rules. -/

/-- `StateWrittenOnlyByItsCommands`: a command that changes a `CRC`, one a `BINDT`, one a table. -/
theorem test_witness_StateWrittenOnlyByItsCommands :
    ((nextState (exec (.write 1 0x97#8) bound)).map fun u => (u.ctx 1).crc != (bound.ctx 1).crc) = some true ∧
    ((nextState (exec (.bind 0 0) bound)).map fun u => (u.ctx 0).bound != (bound.ctx 0).bound) = some true ∧
    ((nextState (exec (.build 1 0x31#8) bound)).map fun u =>
      u.tableRead 1 0x01#8 != bound.tableRead 1 0x01#8 && u.isBuilt 1 != bound.isBuilt 1) = some true := by decide +kernel

theorem test_witness_BuiltAndBoundClearedOnlyByReset :
    (nextState (step (queued 0x40010000#32))).isSome = true ∧
    (queued 0x40010000#32).nextInput (Config.arbiter (queued 0x40010000#32).turn) ≠ some (.resetLine .asserted) ∧
    (queued 0x40010000#32).isBuilt 0 = true ∧ ((queued 0x40010000#32).ctx 1).bound = true := by decide +kernel

theorem test_witness_TableInUseIsImmutable :
    bound.tableInUse 0 = true ∧ (nextState (exec (.build 0 0x31#8) bound)).isSome = true := by decide +kernel

/-- `ReadsAndRepeatsAreIdempotent`: a read, a RESET and a BUILD that succeed. -/
theorem test_witness_ReadsAndRepeatsAreIdempotent :
    bound.firstError (.update 0 0x00#8 0x31#8) = none ∧ (nextState (exec (.update 0 0x00#8 0x31#8) bound)).isSome = true ∧
    bound.firstError (.reset 1) = none ∧ (nextState (exec (.reset 1) bound)).isSome = true ∧
    built.firstError (.build 0 0x31#8) = none ∧ (nextState (exec (.build 0 0x31#8) built)).isSome = true := by decide +kernel

/-- `BoundContextsNameBuiltSlots`: a state with a bound context and a step from it, and a run from reset. -/
theorem test_witness_BoundContextsNameBuiltSlots :
    bound.boundContextsNameBuiltSlots ∧ (bound.ctx 1).bound = true ∧ (nextState (step (queued 0x20000000#32))).isSome = true ∧
    (nextState (Host.Core.run Sys2Proof.core 2
      { State.resetWith largest with hosts := [[], [0x10F00007#32, 0x20FF0000#32]], resetChanges := [] })).isSome = true := by
  refine ⟨fun c hc => ?_, by decide +kernel⟩
  revert hc; revert c; decide +kernel

/-- `StepKeepsInvariant` and `EngineNeverStops`: the invariant with a legal command, an illegal word and reset to come, and
with a failure recorded. -/
theorem test_witness_StepKeepsInvariant :
    (queued 0x30010031#32).Inv ∧ (nextState (step (queued 0x30010031#32))).isSome = true ∧
    (queued 0xB0000000#32).Inv ∧ (lineChanging .asserted).Inv ∧
    (boundWith [[0x10000007#32]] [] { err := true, ecode := 5#3 }).Inv :=
  ⟨bound_inv _ _ _ (by decide) rfl, by decide +kernel, bound_inv _ _ _ (by decide) rfl, bound_inv _ _ _ (by decide) rfl,
    bound_inv _ _ _ (by decide) rfl⟩

end Sys2Proof.Tests
end

section
/-! What the state right after reset holds (R150, R151), one lemma per field or accessor, and from these O14. -/

namespace Sys2Proof

/-- The parameters of the reference configuration (R8). -/
theorem Config.reference_parameters :
    Config.reference.nt = 2 ∧ Config.reference.nd = 2 ∧ Config.reference.nhost = 1 := by decide

namespace Machine

/-- A fresh engine is one that hardware reset has just left (R150): resetting it again changes nothing. -/
theorem State.hardwareReset_resetWith (k : Config) : (State.resetWith k).hardwareReset = State.resetWith k := rfl

@[simp] theorem State.resetWith_config (k : Config) : (State.resetWith k).config = k := rfl
@[simp] theorem State.resetWith_status (k : Config) : (State.resetWith k).status = Status.afterReset := rfl
@[simp] theorem State.resetWith_resetHeld (k : Config) : (State.resetWith k).resetHeld = false := rfl
@[simp] theorem State.resetWith_responses (k : Config) : (State.resetWith k).responses = [] := rfl

@[simp] theorem State.tableRead_resetWith (k : Config) (t : Index) (i : Byte) : (State.resetWith k).tableRead t i = none := by
  rw [← State.hardwareReset_resetWith, State.tableRead_hardwareReset]

@[simp] theorem State.isBuilt_resetWith (k : Config) (t : Index) : (State.resetWith k).isBuilt t = false := by
  rw [← State.hardwareReset_resetWith, State.isBuilt_hardwareReset]

@[simp] theorem State.ctx_resetWith (k : Config) (c : Index) : (State.resetWith k).ctx c = Context.afterReset := by
  rw [← State.hardwareReset_resetWith, State.ctx_hardwareReset]

/-- `STATUS` reads 0x00 after reset (R150). -/
@[simp] theorem Status.word_afterReset : Status.afterReset.word = 0x00#8 := by decide

/-- Settles O14: a fresh engine of any configuration holds what hardware reset leaves (R150), and `State.reset` is the one
of the reference configuration (R8). -/
theorem machineStartsAtResetValues : Obligations.MachineStartsAtResetValues := by
  refine ⟨fun k => ⟨State.tableRead_resetWith k, State.isBuilt_resetWith k, fun c => ?contexts, ?status,
    State.resetWith_config k, State.resetWith_responses k, State.resetWith_resetHeld k⟩, Config.reference_parameters⟩
  case contexts => simp [Context.afterReset]
  case status => rw [State.resetWith_status, Status.word_afterReset]

end Machine

end Sys2Proof
end

section
/-! What each command and each step changes of the engine's state and what it leaves (10_state.md R21 to R26, R31, R34),
and the invariant of the machine along every step. -/

namespace Sys2Proof.Machine

variable {s u : State} {i : Instr}

/-! States that hold the same engine state read alike. -/

theorem State.sameEngine.tableRead (h : u.sameEngine s) (t : Index) (idx : Byte) :
    u.tableRead t idx = s.tableRead t idx := by
  simp only [State.tableRead, h.table]

theorem State.sameEngine.isBuilt (h : u.sameEngine s) (t : Index) : u.isBuilt t = s.isBuilt t := by
  simp only [State.isBuilt, h.tbuilt]

theorem State.sameEngine.ctx (h : u.sameEngine s) (c : Index) : u.ctx c = s.ctx c := by
  simp only [State.ctx, h.contexts]

/-- What hardware reset leaves does not depend on the state it starts from: an engine that holds the reset values holds
them whatever its port. -/
theorem State.sameEngine.resetValues (hs : s.sameEngine s.hardwareReset) (h : u.sameEngine s) :
    u.sameEngine u.hardwareReset :=
  ⟨h.table.trans hs.table, h.tbuilt.trans hs.tbuilt, h.contexts.trans hs.contexts, h.status.trans hs.status⟩

/-! What one command changes. -/

/-- No command writes the configuration or what waits at the port (R31). -/
theorem Effect.port_frame (h : Effect i s u) :
    u.config = s.config ∧ u.hosts = s.hosts ∧ u.resetChanges = s.resetChanges ∧ u.resetHeld = s.resetHeld ∧
      u.turn = s.turn ∧ u.served = s.served := by
  cases h <;> exact ⟨rfl, rfl, rfl, rfl, rfl, rfl⟩

/-- A table entry changes only by BUILD of its slot, and only while no bound context names that slot (R42, R81). -/
theorem Effect.build_of_tableRead_ne (h : Effect i s u) {t : Index} {idx : Byte}
    (hne : u.tableRead t idx ≠ s.tableRead t idx) : (∃ poly, i = .build t poly) ∧ s.tableInUse t = false := by
  cases h with
  | built t' poly hi _ hfree =>
    obtain rfl : t = t' := by
      by_contra htt
      exact hne (by simp [htt])
    exact ⟨⟨poly, hi⟩, hfree⟩
  | failed | read | status | bound | folded | cleared => exact absurd (by simp) hne

/-- `TBUILT` after a command: as it was, or set by BUILD of its slot (R22). -/
theorem Effect.isBuilt_eq_or_build (h : Effect i s u) (t : Index) :
    u.isBuilt t = s.isBuilt t ∨ u.isBuilt t = true ∧ ∃ poly, i = .build t poly := by
  cases h with
  | built t' poly hi =>
    by_cases htt : t = t'
    · subst htt; exact .inr ⟨by simp, poly, hi⟩
    · exact .inl (by simp [htt])
  | failed | read | status | bound | folded | cleared => exact .inl (by simp)

/-- A context after a command: as it was, bound afresh by BIND, or with another `CRC` by WRITE or RESET of it (R23 to
R25). -/
theorem Effect.ctx_cases (h : Effect i s u) (c : Index) :
    u.ctx c = s.ctx c ∨ ((u.ctx c).bound = true ∧ ∃ t, i = .bind c t) ∨
      ((u.ctx c).bindt = (s.ctx c).bindt ∧ (u.ctx c).bound = (s.ctx c).bound ∧
        ((∃ b, i = .write c b) ∨ i = .reset c)) := by
  cases h with
  | bound c' t hi =>
    by_cases hcc : c = c'
    · subst hcc; exact .inr (.inl ⟨by simp, t, hi⟩)
    · exact .inl (by simp [hcc])
  | folded c' b x hi =>
    by_cases hcc : c = c'
    · subst hcc; exact .inr (.inr ⟨by simp, by simp, .inl ⟨b, hi⟩⟩)
    · exact .inl (by simp [hcc])
  | cleared c' hi =>
    by_cases hcc : c = c'
    · subst hcc; exact .inr (.inr ⟨by simp, by simp, .inr hi⟩)
    · exact .inl (by simp [hcc])
  | failed | read | status | built => exact .inl (by simp)

/-- No command clears a `TBUILT` (R22). -/
theorem Effect.isBuilt_mono (h : Effect i s u) {t : Index} (ht : s.isBuilt t = true) : u.isBuilt t = true := by
  rcases h.isBuilt_eq_or_build t with heq | ⟨hset, -⟩
  · rw [heq, ht]
  · exact hset

/-- No command clears a `BOUND` (R25). -/
theorem Effect.bound_mono (h : Effect i s u) {c : Index} (hc : (s.ctx c).bound = true) : (u.ctx c).bound = true := by
  rcases h.ctx_cases c with heq | ⟨hset, -⟩ | ⟨-, heq, -⟩
  · rw [heq, hc]
  · exact hset
  · rw [heq, hc]

/-- Settles O48: each clause is the frame of that piece of state through a command's effect. -/
theorem stateWrittenOnlyByItsCommands : Obligations.StateWrittenOnlyByItsCommands := by
  intro i s u h
  have he := exec_effect h
  refine ⟨fun t idx hne => (he.build_of_tableRead_ne hne).1, fun t hne => ?tbuilt, fun c hne => ?crc,
    fun c hne => ?binding, he.port_frame⟩
  case tbuilt => exact ((he.isBuilt_eq_or_build t).resolve_left hne).2
  case crc =>
    rcases he.ctx_cases c with heq | ⟨-, hbind⟩ | ⟨-, -, hcrc⟩
    · exact absurd (congrArg Context.crc heq) hne
    · exact .inl hbind
    · exact .inr hcrc
  case binding =>
    rcases he.ctx_cases c with heq | ⟨-, hbind⟩ | ⟨hbindt, hbound, -⟩
    · simp [heq] at hne
    · exact hbind
    · simp [hbindt, hbound] at hne

/-- Settles O50: BUILD, the one command that writes an entry, refuses a slot in use (R81). -/
theorem tableInUseIsImmutable : Obligations.TableInUseIsImmutable := by
  intro i t s u huse h idx
  by_contra hne
  have hfree := ((exec_effect h).build_of_tableRead_ne hne).2
  simp [huse] at hfree

/-! What one step changes of the engine's state. -/

/-- A step is the reset line going up, leaves the engine's state, or is one command's effect on it. The failure of an
illegal word is an effect that any command can have; SIZE stands for them. -/
theorem step_engine_cases (h : step s = .next u) :
    (s.nextInput (Config.arbiter s.turn) = some (.resetLine .asserted) ∧ u.config = s.config ∧
      u.sameEngine s.hardwareReset) ∨
    (u.config = s.config ∧ u.sameEngine s) ∨
    (∃ i v, v.config = s.config ∧ v.sameEngine s ∧ Effect i v u) := by
  rcases step_cases h with ⟨-, rfl⟩ | ⟨k, w, -, -, rfl⟩ | ⟨k, w, i, -, -, -, hx⟩ | ⟨k, w, e, -, -, -, rfl⟩ |
    ⟨hn, rfl⟩ | ⟨-, rfl⟩
  · exact .inr (.inl ⟨rfl, rfl, rfl, rfl, rfl⟩)
  · exact .inr (.inl ⟨rfl, rfl, rfl, rfl, rfl⟩)
  · exact .inr (.inr ⟨i, (s.taken (.command k w)).serve k, rfl, ⟨rfl, rfl, rfl, rfl⟩, exec_effect hx⟩)
  · exact .inr (.inr ⟨.size, (s.taken (.command k w)).serve k, rfl, ⟨rfl, rfl, rfl, rfl⟩, .failed .illegal⟩)
  · exact .inl ⟨hn, rfl, rfl, rfl, rfl, rfl⟩
  · exact .inr (.inl ⟨rfl, rfl, rfl, rfl, rfl⟩)

/-- Settles O49: only hardware reset clears a flag; every command's effect keeps those that are set. -/
theorem builtAndBoundClearedOnlyByReset : Obligations.BuiltAndBoundClearedOnlyByReset := by
  intro s u h hn
  rcases step_engine_cases h with ⟨hreset, -⟩ | ⟨-, hsame⟩ | ⟨i, v, -, hsame, he⟩
  · exact absurd hreset hn
  · exact ⟨fun t ht => by rw [hsame.isBuilt, ht], fun c hc => by rw [hsame.ctx, hc]⟩
  · exact ⟨fun t ht => he.isBuilt_mono (by rw [hsame.isBuilt, ht]),
      fun c hc => he.bound_mono (by rw [hsame.ctx, hc])⟩

/-! The configuration (R31). -/

/-- No step writes the configuration. -/
theorem step_config (h : step s = .next u) : u.config = s.config := by
  rcases step_engine_cases h with ⟨-, hc, -⟩ | ⟨hc, -⟩ | ⟨i, v, hc, -, he⟩
  · exact hc
  · exact hc
  · exact he.port_frame.1.trans hc

/-- No run writes the configuration. -/
theorem run_config {n : Nat} (h : Host.Core.run Sys2Proof.core n s = .next u) : u.config = s.config :=
  run_induction (P := fun s u => u.config = s.config) (fun _ => rfl)
    (fun _ _ _ hst hstep => (step_config hstep).trans hst) h

/-- Bits 23:20 of RDSTAT's response, the high half of its `CFG`, are `ND - 1` (R66, R120). -/
theorem ndLess1_of_responseWord (k : Config) (st data : Byte) :
    (responseWord st (configByte k) data).extractLsb' 20 4 = k.ndLess1 := by
  apply BitVec.eq_of_getLsbD_eq
  intro j hj
  interval_cases j <;> simp [responseWord, configByte]

/-- Bits 19:16 of RDSTAT's response, the low half of its `CFG`, are `NT - 1` (R66, R120). -/
theorem ntLess1_of_responseWord (k : Config) (st data : Byte) :
    (responseWord st (configByte k) data).extractLsb' 16 4 = k.ntLess1 := by
  apply BitVec.eq_of_getLsbD_eq
  intro j hj
  interval_cases j <;> simp [responseWord, configByte]

/-- Settles O39: no step writes the configuration, and the two halves of RDSTAT's `CFG` are its constants. -/
theorem configurationIsConstant : Obligations.ConfigurationIsConstant := by
  intro n s u h
  have hc : u.config = s.config := run_config h
  refine ⟨hc, responseWord 0x00#8 (configByte u.config) u.status.word, rfl, ?nd, ?nt⟩
  case nd =>
    rw [ndLess1_of_responseWord, hc]
    simp [Config.nd]
  case nt =>
    rw [ntLess1_of_responseWord, hc]
    simp [Config.nt]

/-! R26: bound contexts name built slots. -/

theorem State.boundContextsNameBuiltSlots_of_sameEngine (hc : u.config = s.config) (h : u.sameEngine s)
    (hs : s.boundContextsNameBuiltSlots) : u.boundContextsNameBuiltSlots := by
  intro c hb
  rw [h.ctx] at hb ⊢
  rw [hc, h.isBuilt]
  exact hs c hb

/-- At the reset values no context is bound, so R26 holds. -/
theorem State.boundContextsNameBuiltSlots_of_resetValues (h : u.sameEngine s.hardwareReset) :
    u.boundContextsNameBuiltSlots := by
  intro c hb
  simp [h.ctx, Context.afterReset] at hb

/-- Setting a `TBUILT` keeps R26. -/
theorem State.boundContextsNameBuiltSlots_setBuilt (h : s.boundContextsNameBuiltSlots) (t : Index) :
    (s.setBuilt t).boundContextsNameBuiltSlots := by
  intro c hb
  obtain ⟨hlt, hbuilt⟩ := h c hb
  exact ⟨hlt, by simp [hbuilt]⟩

/-- Writing a context that names a built slot in range keeps R26. -/
theorem State.boundContextsNameBuiltSlots_setCtx (h : s.boundContextsNameBuiltSlots) (c : Index) {x : Context}
    (ht : x.bindt.toNat < s.config.nt) (hbuilt : s.isBuilt x.bindt = true) :
    (s.setCtx c x).boundContextsNameBuiltSlots := by
  intro d hb
  by_cases hdc : d = c
  · simp [hdc, ht, hbuilt]
  · simpa [hdc] using h d (by simpa [hdc] using hb)

/-- A new `CRC` in a bound context keeps R26. -/
theorem State.boundContextsNameBuiltSlots_setCrc (h : s.boundContextsNameBuiltSlots) {c : Index}
    (hb : (s.ctx c).bound = true) (x : Byte) : (s.setCrc c x).boundContextsNameBuiltSlots :=
  State.boundContextsNameBuiltSlots_setCtx h c (h c hb).1 (h c hb).2

/-- Every command keeps R26. -/
theorem Effect.keeps_boundContextsNameBuiltSlots (he : Effect i s u) (h : s.boundContextsNameBuiltSlots) :
    u.boundContextsNameBuiltSlots := by
  cases he with
  | failed | read | status => exact h
  | built t poly => exact State.boundContextsNameBuiltSlots_setBuilt (s := s.fillSlot t (tableEntry poly)) h t
  | bound c t _ _ ht hbuilt => exact State.boundContextsNameBuiltSlots_setCtx h c ht hbuilt
  | folded c b x _ _ hb => exact State.boundContextsNameBuiltSlots_setCrc h hb x
  | cleared c _ _ hb => exact State.boundContextsNameBuiltSlots_setCrc h hb 0x00#8

/-- Every step keeps R26. -/
theorem step_keeps_boundContextsNameBuiltSlots (h : s.boundContextsNameBuiltSlots) (hstep : step s = .next u) :
    u.boundContextsNameBuiltSlots := by
  rcases step_engine_cases hstep with ⟨-, -, hsame⟩ | ⟨hc, hsame⟩ | ⟨i, v, hc, hsame, he⟩
  · exact State.boundContextsNameBuiltSlots_of_resetValues hsame
  · exact State.boundContextsNameBuiltSlots_of_sameEngine hc hsame h
  · exact he.keeps_boundContextsNameBuiltSlots (State.boundContextsNameBuiltSlots_of_sameEngine hc hsame h)

/-- Settles O52: R26 holds at reset, where no context is bound, and every step keeps it. -/
theorem boundContextsNameBuiltSlots : Obligations.BoundContextsNameBuiltSlots := by
  refine ⟨fun s u => step_keeps_boundContextsNameBuiltSlots, fun k hosts changes n u h => ?_⟩
  refine run_induction (P := fun s u => s.boundContextsNameBuiltSlots → u.boundContextsNameBuiltSlots)
    (fun _ hs => hs) (fun _ _ _ hst hstep hs => step_keeps_boundContextsNameBuiltSlots (hst hs) hstep) h ?start
  case start => exact State.boundContextsNameBuiltSlots_of_resetValues (s := State.resetWith k) ⟨rfl, rfl, rfl, rfl⟩

/-! The invariant of the machine: what each operation needs to keep it. -/

/-- A response has the form of R66 when its `ST` is a code that exists and, for a failure, its `CFG` and `DATA` are
0x00. -/
theorem responseWellFormed_responseWord {st cfg data : Byte} (hst : st.toNat ≤ 5)
    (hfail : st ≠ 0x00#8 → cfg = 0x00#8 ∧ data = 0x00#8) : responseWellFormed (responseWord st cfg data) := by
  simpa [responseWellFormed, hst] using hfail

theorem responseWellFormed_ok (cfg data : Byte) : responseWellFormed (responseWord 0x00#8 cfg data) :=
  responseWellFormed_responseWord (by decide) fun h => absurd rfl h

theorem responseWellFormed_fail (e : ErrorCode) : responseWellFormed (responseWord e.code 0x00#8 0x00#8) :=
  responseWellFormed_responseWord (by cases e <;> decide) fun _ => ⟨rfl, rfl⟩

/-- The code of a failure is 0x1 to 0x5 in `ECODE` (R27, R131). -/
theorem ErrorCode.ecode_range (e : ErrorCode) : 1 ≤ e.ecode.toNat ∧ e.ecode.toNat ≤ 5 := by
  cases e <;> decide

/-- An engine at its reset values has the invariant, whatever the port's record, if that record is in order. -/
theorem State.inv_of_resetValues (he : s.sameEngine s.hardwareReset) (hhosts : s.hosts.length = s.config.nhost)
    (hresp : ∀ w ∈ s.responses, responseWellFormed w) (hserved : s.served.length = s.responses.length) : s.Inv where
  tableWf := by rw [he.table]; exact List.Pairwise.nil
  tableInRange := by simp [he.table]
  builtTable t ht := by simp [he.isBuilt] at ht
  unbuiltTable t _ idx := by simp [he.tableRead]
  builtExists t ht := by simp [he.isBuilt] at ht
  boundExists c hc := by simp [he.ctx, Context.afterReset] at hc
  boundBuilt := boundContextsNameBuiltSlots_of_resetValues he
  unboundReset c _ := by simp [he.ctx]
  statusLegal := by simp [he.status, Status.afterReset]
  hostQueues := hhosts
  responsesWf := hresp
  servedEach := hserved
  heldReset _ := he

/-- Settles O53: a fresh engine holds its reset values and its record is empty. -/
theorem invariantHoldsAtReset : Obligations.InvariantHoldsAtReset := by
  have hreset : ∀ k : Config, (State.resetWith k).Inv := fun k =>
    State.inv_of_resetValues ⟨rfl, rfl, rfl, rfl⟩ (by simp [State.resetWith]) (by simp) rfl
  exact ⟨hreset, hreset Config.reference⟩

/-- Taking a command from its queue keeps the invariant. -/
theorem State.Inv.taken_command (hi : s.Inv) (k : Nat) (w : Word) : (s.taken (.command k w)).Inv :=
  { hi with
    hostQueues := by simp [hi.hostQueues]
    heldReset := fun h => (hi.heldReset h).resetValues ⟨rfl, rfl, rfl, rfl⟩ }

/-- Letting the reset line go keeps the invariant. -/
theorem State.Inv.released (hi : s.Inv) : State.Inv { s.taken (.resetLine .released) with resetHeld := false } :=
  { hi with heldReset := nofun }

/-- The reset line going up keeps the invariant. -/
theorem State.Inv.asserted (hi : s.Inv) :
    State.Inv { (s.taken (.resetLine .asserted)).hardwareReset with resetHeld := true } :=
  State.inv_of_resetValues ⟨rfl, rfl, rfl, rfl⟩ hi.hostQueues hi.responsesWf hi.servedEach

/-- Serving a host and replying to it with a response of the form of R66 keeps the invariant. -/
theorem State.Inv.serve_reply (hi : s.Inv) (k : Nat) {w : Word} (hw : responseWellFormed w) :
    ((s.serve k).reply w).Inv :=
  { hi with
    responsesWf := fun x hx => by
      rcases List.mem_append.1 hx with hx | hx
      · exact hi.responsesWf x hx
      · rw [List.mem_singleton.1 hx]; exact hw
    servedEach := by simp [hi.servedEach]
    heldReset := fun h => (hi.heldReset h).resetValues ⟨rfl, rfl, rfl, rfl⟩ }

/-- Recording a failure in `STATUS` keeps the invariant of an engine that reset does not hold. -/
theorem State.Inv.record (hi : s.Inv) (hr : s.resetHeld = false) (e : ErrorCode) :
    State.Inv { s with status := s.status.record e } :=
  { hi with
    statusLegal := by
      simp only [Status.record]
      split
      · exact hi.statusLegal
      · exact ⟨nofun, fun _ => e.ecode_range⟩
    heldReset := fun h => by simp [hr] at h }

/-- Filling an existing slot with the table of a polynomial and setting its `TBUILT` keeps the invariant. -/
theorem State.Inv.build (hi : s.Inv) (hr : s.resetHeld = false) {t : Index} (ht : t.toNat < s.config.nt) (poly : Byte) :
    ((s.fillSlot t (tableEntry poly)).setBuilt t).Inv :=
  { hi with
    tableWf := Memory.writeSlot_wf hi.tableWf t (tableEntry poly)
    tableInRange := fun cell hcell => by
      rcases Memory.mem_writeSlot hcell with hold | hnew
      · exact hi.tableInRange cell hold
      · simp only [State.setBuilt_config, State.fillSlot_config]; omega
    builtTable := fun t' ht' => by
      by_cases htt : t' = t
      · exact ⟨poly, fun idx => by simp [htt]⟩
      · simpa [htt] using hi.builtTable t' (by simpa [htt] using ht')
    unbuiltTable := fun t' ht' idx => by
      obtain ⟨htt, hold⟩ : t' ≠ t ∧ s.isBuilt t' = false := by simpa using ht'
      simpa [htt] using hi.unbuiltTable t' hold idx
    builtExists := fun t' ht' => by
      obtain rfl | hold : t' = t ∨ s.isBuilt t' = true := by simpa using ht'
      · exact ht
      · exact hi.builtExists t' hold
    boundBuilt := State.boundContextsNameBuiltSlots_setBuilt (s := s.fillSlot t (tableEntry poly)) hi.boundBuilt t
    heldReset := fun h => by simp [hr] at h }

/-- Writing an existing context, bound to a built slot, keeps the invariant. -/
theorem State.Inv.setCtx (hi : s.Inv) (hr : s.resetHeld = false) {c : Index} {x : Context} (hc : c.toNat < s.config.nd)
    (hx : x.bound = true) (ht : x.bindt.toNat < s.config.nt) (hbuilt : s.isBuilt x.bindt = true) : (s.setCtx c x).Inv :=
  { hi with
    boundExists := fun d hd => by
      by_cases hdc : d = c
      · rw [hdc]; exact hc
      · exact hi.boundExists d (by simpa [hdc] using hd)
    boundBuilt := State.boundContextsNameBuiltSlots_setCtx hi.boundBuilt c ht hbuilt
    unboundReset := fun d hd => by
      by_cases hdc : d = c
      · simp [hdc, hx] at hd
      · simpa [hdc] using hi.unboundReset d (by simpa [hdc] using hd)
    heldReset := fun h => by simp [hr] at h }

/-- A new `CRC` in a bound context keeps the invariant. -/
theorem State.Inv.setCrc (hi : s.Inv) (hr : s.resetHeld = false) {c : Index} (hb : (s.ctx c).bound = true) (x : Byte) :
    (s.setCrc c x).Inv :=
  hi.setCtx hr (hi.boundExists c hb) hb (hi.boundBuilt c hb).1 (hi.boundBuilt c hb).2

/-- A command served to a host keeps the invariant, whatever its effect: each effect is a change of the engine that
keeps it and one response. -/
theorem Effect.keeps_inv {k : Nat} (he : Effect i (s.serve k) u) (hi : s.Inv) (hr : s.resetHeld = false) : u.Inv := by
  cases he with
  | failed e => exact (hi.record hr e).serve_reply k (responseWellFormed_fail e)
  | read d => exact hi.serve_reply k (responseWellFormed_ok _ _)
  | status => exact hi.serve_reply k (responseWellFormed_ok _ _)
  | built t poly _ ht => exact (hi.build hr ht poly).serve_reply k (responseWellFormed_ok _ _)
  | bound c t _ hc ht hbuilt => exact (hi.setCtx hr hc rfl ht hbuilt).serve_reply k (responseWellFormed_ok _ _)
  | folded c b x _ _ hb => exact (hi.setCrc hr hb x).serve_reply k (responseWellFormed_ok _ _)
  | cleared c _ _ hb => exact (hi.setCrc hr hb 0x00#8).serve_reply k (responseWellFormed_ok _ _)

/-- Settles O54: the six things a step can do, each by the lemma about it. -/
theorem stepKeepsInvariant : Obligations.StepKeepsInvariant := by
  intro s u hi h
  rcases step_cases h with ⟨-, rfl⟩ | ⟨k, w, -, -, rfl⟩ | ⟨k, w, i, -, hr, -, hx⟩ | ⟨k, w, e, -, hr, -, rfl⟩ |
    ⟨-, rfl⟩ | ⟨-, rfl⟩
  · exact hi
  · exact hi.taken_command k w
  · exact (exec_effect hx).keeps_inv (hi.taken_command k w) hr
  · exact (Effect.failed (i := .size) .illegal).keeps_inv (hi.taken_command k w) hr
  · exact hi.asserted
  · exact hi.released

/-! The model's own stop (R21; log 1). -/

theorem exec_tread_noValue {t : Index} {idx : Byte} (ht : t.toNat < s.config.nt) (hbuilt : s.isBuilt t = true)
    (hread : s.tableRead t idx = none) : exec (.tread t idx) s = .fault (.tableEntryNoValue t idx) := by
  simp [exec, execTread, (s.slotExists_iff t).2 ht, hbuilt, hread]

theorem exec_update_noValue {t : Index} {x b : Byte} (ht : t.toNat < s.config.nt) (hbuilt : s.isBuilt t = true)
    (hread : s.tableRead t (x ^^^ b) = none) : exec (.update t x b) s = .fault (.tableEntryNoValue t (x ^^^ b)) := by
  simp [exec, execUpdate, State.foldByte_eq, (s.slotExists_iff t).2 ht, hbuilt, hread]

theorem exec_write_noValue {c : Index} {b : Byte} (hc : c.toNat < s.config.nd) (hb : (s.ctx c).bound = true)
    (hread : s.tableRead (s.ctx c).bindt ((s.ctx c).crc ^^^ b) = none) :
    exec (.write c b) s = .fault (.tableEntryNoValue (s.ctx c).bindt ((s.ctx c).crc ^^^ b)) := by
  simp [exec, execWrite, State.foldByte_eq, (s.ctxExists_iff c).2 hc, hb, hread]

/-- Settles O47: the checks pass, so each command comes to the entry it reads, and that has no value. -/
theorem entryWithoutValueStops : Obligations.EntryWithoutValueStops :=
  fun _ _ _ _ _ => ⟨exec_tread_noValue, exec_update_noValue, exec_write_noValue⟩

end Sys2Proof.Machine
end

section
/-! The port (20_memory.md R45, R46): which inputs can come next, and the step that takes a command. -/

namespace Sys2Proof

/-- A command survives encoding and decoding (R63, R64): the fields of its word are its operands, and the others are
zero. -/
theorem decode_encode (i : Instr) : decode (encode i) = .ok i := by
  cases i <;> simp [encode, decode, decodeByOpcode, ifUnusedZero]

namespace Machine

variable {s u : State} {i : Instr} {w : Word} {h choice : Nat}

/-! What comes next. -/

theorem State.firstInput_host {rest : List Word} (hq : s.hosts[h]? = some (w :: rest)) :
    s.firstInput (.host h) = some (.command h w) := by
  simp only [State.firstInput, hq]

theorem State.firstInput_resetLine {x : ResetChange} {rest : List ResetChange} (hc : s.resetChanges = x :: rest) :
    s.firstInput .resetLine = some (.resetLine x) := by
  simp only [State.firstInput, hc]

theorem State.host_mem_waiting : .host h ∈ s.waiting ↔ ∃ w rest, s.hosts[h]? = some (w :: rest) := by
  simp [State.waiting, mem_hostsWaiting]

theorem State.resetLine_mem_waiting : .resetLine ∈ s.waiting ↔ ∃ x rest, s.resetChanges = x :: rest := by
  cases hc : s.resetChanges <;> simp [State.waiting, hc, resetLine_not_mem_hostsWaiting]

/-- A source that waits has a first input. -/
theorem State.exists_firstInput {x : Source} (hx : x ∈ s.waiting) : ∃ y, s.firstInput x = some y := by
  cases x with
  | host h =>
    obtain ⟨w, rest, hq⟩ := State.host_mem_waiting.1 hx
    exact ⟨_, State.firstInput_host hq⟩
  | resetLine =>
    obtain ⟨x, rest, hc⟩ := State.resetLine_mem_waiting.1 hx
    exact ⟨_, State.firstInput_resetLine hc⟩

/-- Any source that waits can be the one whose first input comes next (R46). -/
theorem State.exists_nextInput {x : Source} (hx : x ∈ s.waiting) : ∃ choice, s.nextInput choice = s.firstInput x := by
  obtain ⟨choice, hpick⟩ := pickSource_complete hx
  exact ⟨choice, by simp only [State.nextInput, hpick]⟩

/-- Nothing comes next exactly where no source waits (R147). -/
theorem State.nextInput_eq_none : s.nextInput choice = none ↔ s.waiting = [] := by
  have hsome := pickSource_isSome choice s.waiting
  cases hpick : pickSource choice s.waiting with
  | none => simpa [State.nextInput, hpick] using hsome
  | some x =>
    obtain ⟨y, hy⟩ := State.exists_firstInput (pickSource_mem hpick)
    simpa [State.nextInput, hpick, hy] using hsome

theorem hostsWaiting_eq_nil {n : Nat} {l : List (List Word)} : hostsWaiting n l = [] ↔ ∀ q ∈ l, q = [] := by
  induction l generalizing n with
  | nil => simp [hostsWaiting]
  | cons q rest ih => cases q <;> simp [hostsWaiting, ih]

theorem State.waiting_eq_nil : s.waiting = [] ↔ (∀ q ∈ s.hosts, q = []) ∧ s.resetChanges = [] := by
  cases hc : s.resetChanges <;> simp [State.waiting, hc, hostsWaiting_eq_nil]

/-- Where host 0 alone waits, its first word comes next, whatever the choice. -/
theorem State.nextInput_onlyHost {q : List Word} {others : List (List Word)} (hh : s.hosts = (w :: q) :: others)
    (hothers : ∀ r ∈ others, r = []) (hc : s.resetChanges = []) (choice : Nat) :
    s.nextInput choice = some (.command 0 w) := by
  have hwait : s.waiting = [.host 0] := by
    simp [State.waiting, hc, hh, hostsWaiting, hostsWaiting_eq_nil.2 hothers]
  simp [State.nextInput, hwait, pickSource, State.firstInput, hh]

/-- Settles O10: the first two clauses by where an input comes from, the others by what it is for a source to wait. -/
theorem everyHostOrderAdmitted : Obligations.EveryHostOrderAdmitted := by
  intro s
  refine ⟨fun choice h w hn => ?command, fun choice x hn => ?change, fun h w rest hq => ?host,
    fun x rest hc => ?resetLine, fun choice => State.nextInput_eq_none.trans State.waiting_eq_nil⟩
  case command =>
    obtain ⟨rest, hq⟩ := State.nextInput_command hn
    exact ⟨rest, hq, by simp [dropFirst_getElem?, hq], fun k hk => by simp [dropFirst_getElem?, hk]⟩
  case change =>
    obtain ⟨rest, hc⟩ := State.nextInput_resetLine hn
    exact ⟨rest, hc, by simp [hc]⟩
  case host =>
    rw [← State.firstInput_host hq]
    exact State.exists_nextInput (State.host_mem_waiting.2 ⟨w, rest, hq⟩)
  case resetLine =>
    rw [← State.firstInput_resetLine hc]
    exact State.exists_nextInput (State.resetLine_mem_waiting.2 ⟨x, rest, hc⟩)

/-! The step that takes a command. -/

theorem executeWord_of_decode_ok (hw : decode w = .ok i) : executeWord w s = exec i s := by
  simp only [executeWord, hw]

theorem executeWord_of_decode_error {e : IllegalWord} (hw : decode w = .error e) :
    executeWord w s = .next (s.fail .illegal) := by
  simp only [executeWord, hw]

@[simp] theorem executeWord_encode : executeWord (encode i) s = exec i s :=
  executeWord_of_decode_ok (decode_encode i)

/-- With reset not held, the command that comes next is executed, and its response is owed to its host (R45). -/
theorem step_command (hn : s.nextInput (Config.arbiter s.turn) = some (.command h w)) (hr : s.resetHeld = false) :
    step s = executeWord w ((s.taken (.command h w)).serve h) := by
  simp [step, stepWith, hn, deliver, hr]

/-- Settles O7: the step executes the word, which is `exec` of its command, or ILLEGAL where it has none (R132). -/
theorem stepRunsDecodedCommand : Obligations.StepRunsDecodedCommand := by
  intro s h w hn hr
  refine ⟨fun i hw => ?legal, fun e hw => ?illegal⟩
  case legal => rw [step_command hn hr, executeWord_of_decode_ok hw]; rfl
  case illegal => rw [step_command hn hr, executeWord_of_decode_error hw, State.fail_eq]; rfl

/-- A placed word stands before what host 0 had to send, and the other hosts have nothing to send (log 7). -/
theorem State.placeCommand_hosts (s : State) (w : Word) :
    (s.placeCommand w).hosts = (w :: s.hosts.headD []) :: s.hosts.tail.map fun _ => [] := by
  cases hh : s.hosts <;> simp [State.placeCommand, hh]

/-- Settles O8: the placed word is the one input that waits, so the step takes it. -/
theorem placedWordRunsNext : Obligations.PlacedWordRunsNext := by
  intro s w i hw
  have hword : BitVec.ofNat 32 (w.toNat % 2 ^ 32) = w := by
    rw [BitVec.toNat_mod_cancel, BitVec.ofNat_toNat, BitVec.setWidth_eq]
  have hn : ∀ choice, (s.placeCommand w).nextInput choice = some (.command 0 w) :=
    State.nextInput_onlyHost (s.placeCommand_hosts w) (by simp) rfl
  have htaken : ((s.placeCommand w).taken (.command 0 w)).hosts = s.hosts.headD [] :: s.hosts.tail.map fun _ => [] := by
    simp [State.placeCommand_hosts, dropFirst]
  rw [State.withFetchWord, hword, step_command (hn _) rfl, executeWord_of_decode_ok hw, ← htaken]
  rfl

/-! Runs (R45, R46). -/

theorem andThen_eq_next {α β : Type} {o : Host.Outcome α Fault Refusal} {k : α → Host.Outcome β Fault Refusal} {b : β} :
    andThen o k = .next b ↔ ∃ a, o = .next a ∧ k a = .next b := by
  cases o <;> simp [andThen]

@[simp] theorem outcomeWithPortOf_next (p : State) : outcomeWithPortOf p (.next s) = .next (s.withPortOf p) := rfl

/-- No sequence of commands sees what waits at the port (R145). -/
theorem execAll_withPortOf (cmds : List Instr) (p : State) :
    execAll cmds (s.withPortOf p) = outcomeWithPortOf p (execAll cmds s) := by
  induction cmds generalizing s with
  | nil => rfl
  | cons i rest ih =>
    simp only [execAll, exec_withPortOf]
    cases exec i s with
    | next v => exact ih
    | fault r => rfl
    | refused r => rfl

/-- The step that takes the word of a command does what the command does, with the port as taking the word leaves it. -/
theorem step_of_exec (hn : s.nextInput (Config.arbiter s.turn) = some (.command h (encode i))) (hr : s.resetHeld = false)
    (hx : exec i s = .next u) : step s = .next (u.withPortOf ((s.taken (.command h (encode i))).serve h)) := by
  rw [step_command hn hr, executeWord_encode, ← outcomeWithPortOf_next, ← hx]
  exact exec_withPortOf s i ((s.taken (.command h (encode i))).serve h)

/-- Where one host sends the words of commands, and these go on one after the other, as many steps lead to what they
lead to, at a port with nothing left to send. -/
theorem run_oneHost {cmds : List Instr} (hh : s.hosts = [cmds.map encode]) (hc : s.resetChanges = [])
    (hr : s.resetHeld = false) (he : execAll cmds s = .next u) :
    ∃ p : State, Host.Core.run Sys2Proof.core cmds.length s = .next (u.withPortOf p) ∧ p.hosts = [[]] := by
  induction cmds generalizing s u with
  | nil => cases he; exact ⟨s, rfl, hh⟩
  | cons i rest ih =>
    obtain ⟨v, hx, hrest⟩ := andThen_eq_next.1 he
    have hstep := step_of_exec (State.nextInput_onlyHost hh (by simp) hc _) hr hx
    obtain ⟨p, hrun, hp⟩ := ih (s := v.withPortOf ((s.taken (.command 0 (encode i))).serve 0))
      (by simp [State.withPortOf, hh, dropFirst]) hc hr (by rw [execAll_withPortOf, hrest, outcomeWithPortOf_next])
    exact ⟨p, by rw [List.length_cons, run_succ, hstep]; exact hrun, hp⟩

/-- Settles O12: the run ends in the engine state and the responses of the commands, with its own port. -/
theorem oneHostCommandsRunInOrder : Obligations.OneHostCommandsRunInOrder := by
  intro s u cmds hh hc hr he
  obtain ⟨p, hrun, hp⟩ := run_oneHost hh hc hr he
  exact ⟨u.withPortOf p, hrun, ⟨rfl, rfl, rfl, rfl⟩, rfl, hp⟩

theorem executeWords_append_singleton (ws : List Word) (w : Word) :
    executeWords (ws ++ [w]) s = andThen (executeWords ws s) (executeWord w) := by
  induction ws generalizing s with
  | nil =>
    simp only [List.nil_append, executeWords, andThen]
    cases executeWord w s <;> rfl
  | cons x rest ih =>
    simp only [List.cons_append, executeWords]
    cases executeWord x s with
    | next v => exact ih
    | fault r => rfl
    | refused r => rfl

/-- A command word leaves the port as it is (R145). -/
theorem executeWord_keeps_port (hx : executeWord w s = .next u) : u = u.withPortOf s := by
  have hport := executeWord_withPortOf s w s
  rw [show s.withPortOf s = s from rfl, hx] at hport
  exact Host.Outcome.next.inj hport

/-- With no reset event, a step is idle or executes the command that comes next. -/
theorem step_cases_of_noReset (hc : s.resetChanges = []) (hr : s.resetHeld = false) (hstep : step s = .next u) :
    u = s ∨ ∃ k w rest, s.hosts[k]? = some (w :: rest) ∧
      executeWord w ((s.taken (.command k w)).serve k) = .next u := by
  cases hn : s.nextInput (Config.arbiter s.turn) with
  | none =>
    simp only [step, stepWith, hn] at hstep
    exact .inl (Host.Outcome.next.inj hstep).symm
  | some x =>
    cases x with
    | command k w =>
      obtain ⟨rest, hq⟩ := State.nextInput_command hn
      exact .inr ⟨k, w, rest, hq, step_command hn hr ▸ hstep⟩
    | resetLine x =>
      obtain ⟨rest, hx⟩ := State.nextInput_resetLine hn
      simp [hc] at hx

/-- A log of served commands leads from `s` to `t`: it is the record of hosts added, it takes from each host's queue its
first words in order, and executing it word by word leads from the engine of `s` to that of `t`. -/
structure LogLeads (log : List (Nat × Word)) (s t : State) : Prop where
  served : t.served = s.served ++ log.map Prod.fst
  queues : ∀ h : Nat, (log.filter fun p => p.1 == h).map Prod.snd ++ (t.hosts[h]?).getD [] = (s.hosts[h]?).getD []
  executed : executeWords (log.map Prod.snd) s = .next (t.withPortOf s)
  resetChanges : t.resetChanges = s.resetChanges
  resetHeld : t.resetHeld = s.resetHeld

theorem LogLeads.refl (s : State) : LogLeads [] s s := ⟨by simp, by simp, rfl, rfl, rfl⟩

/-- One more command served makes the log one longer. -/
theorem LogLeads.command {log : List (Nat × Word)} {t : State} {k : Nat} {rest : List Word} (hl : LogLeads log s t)
    (hq : t.hosts[k]? = some (w :: rest)) (hx : executeWord w ((t.taken (.command k w)).serve k) = .next u) :
    LogLeads (log ++ [(k, w)]) s u := by
  have hport := executeWord_keeps_port hx
  have hserved : u.served = t.served ++ [k] := congrArg State.served hport
  have hhosts : u.hosts = dropFirst k t.hosts := congrArg State.hosts hport
  refine ⟨?served, fun h => ?queues, ?executed, ?_, ?_⟩
  case served => simp [hserved, hl.served]
  case queues =>
    rw [← hl.queues h, hhosts, dropFirst_getElem?]
    by_cases hk : h = k
    · simp [hk, hq]
    · simp [hk, Ne.symm hk]
  case executed =>
    have hw : executeWord w (t.withPortOf s) = .next (u.withPortOf s) := by
      rw [← outcomeWithPortOf_next, ← hx]
      exact executeWord_withPortOf ((t.taken (.command k w)).serve k) w s
    rw [List.map_append, List.map_singleton, executeWords_append_singleton, hl.executed]
    exact hw
  · exact (congrArg State.resetChanges hport).trans hl.resetChanges
  · exact (congrArg State.resetHeld hport).trans hl.resetHeld

/-- With no reset event, each step of a run is idle or adds its command to the log. -/
theorem exists_log_of_run {n : Nat} (hrun : Host.Core.run Sys2Proof.core n s = .next u) :
    s.resetChanges = [] → s.resetHeld = false → ∃ log, LogLeads log s u := by
  refine run_induction (P := fun s u => s.resetChanges = [] → s.resetHeld = false → ∃ log, LogLeads log s u)
    (fun s _ _ => ⟨[], .refl s⟩) (fun s t u ht hstep hc hr => ?step) hrun
  case step =>
    obtain ⟨log, hl⟩ := ht hc hr
    rcases step_cases_of_noReset (hl.resetChanges.trans hc) (hl.resetHeld.trans hr) hstep with
      rfl | ⟨k, w, rest, hq, hx⟩
    · exact ⟨log, hl⟩
    · exact ⟨log ++ [(k, w)], hl.command hq hx⟩

/-- Settles O11: the log of the run is the sequence, and executing it leads to the run's engine state and responses. -/
theorem runIsSomeInterleaving : Obligations.RunIsSomeInterleaving := by
  intro n s t hc hr hrun
  obtain ⟨log, hl⟩ := exists_log_of_run hrun hc hr
  exact ⟨log, hl.served, hl.queues, t.withPortOf s, hl.executed, ⟨rfl, rfl, rfl, rfl⟩, rfl⟩

end Machine

end Sys2Proof
end

section
/-! The write of a whole slot (20_memory.md R42, R52): it reads as the 256 single writes do, and writing the same slot
again keeps it. -/

namespace Sys2Proof.Machine

variable {m : List Host.Cell} {t : Index} {entry : Byte → Byte} {n : Nat}

theorem tableWrites_wf (hm : Memory.wf m) : Memory.wf (tableWrites t entry n m) := by
  induction n with
  | zero => exact hm
  | succ n ih => exact Memory.write_wf ih _ _

/-- Each entry written reads as written. -/
theorem Memory.read_tableWrites_inside {i : Byte} (hn : n ≤ 256) (hi : i.toNat < n) :
    Memory.read (entryAddress t i) (tableWrites t entry n m) = some (entry i) := by
  induction n with
  | zero => omega
  | succ n ih =>
    by_cases hlast : i = BitVec.ofNat 8 n
    · subst hlast
      exact Memory.read_write_same _ _ _
    · have hne : i.toNat ≠ n := fun h => hlast (by rw [← h, BitVec.ofNat_toNat, BitVec.setWidth_eq])
      rw [tableWrites, tableWrite, Memory.read_write_other (by simp [entryAddress_inj, hlast])]
      exact ih (by omega) (by omega)

/-- An address outside the slot reads as before. -/
theorem Memory.read_tableWrites_outside {a : Nat} (ha : ∀ i, a ≠ entryAddress t i) :
    Memory.read a (tableWrites t entry n m) = Memory.read a m := by
  induction n with
  | zero => rfl
  | succ n ih => rw [tableWrites, tableWrite, Memory.read_write_other (ha _), ih]

/-- Where an address stands: it is an entry of the slot, or below or above all of them (R33). -/
theorem entryAddress_cases (t : Index) (a : Nat) :
    (∃ i, a = entryAddress t i) ∨ (∀ i, a ≠ entryAddress t i) ∧ (a < 256 * t.toNat ∨ 256 * t.toNat + 256 ≤ a) := by
  by_cases hin : 256 * t.toNat ≤ a ∧ a < 256 * t.toNat + 256
  · refine .inl ⟨BitVec.ofNat 8 (a - 256 * t.toNat), ?_⟩
    simp only [entryAddress, BitVec.toNat_ofNat]
    omega
  · refine .inr ⟨fun i => ?_, by omega⟩
    have := i.isLt
    simp only [entryAddress]
    omega

/-- Settles O21: both storages are canonical, and each address reads the same in them. -/
theorem slotWriteIsItsTableWrites : Obligations.SlotWriteIsItsTableWrites := by
  intro t entry m hm
  refine Memory.eq_of_read (Memory.writeSlot_wf hm t entry) (tableWrites_wf hm) fun a => ?_
  rcases entryAddress_cases t a with ⟨i, rfl⟩ | ⟨hne, hout⟩
  · rw [Memory.read_writeSlot_inside, Memory.read_tableWrites_inside le_rfl i.isLt]
  · rw [Memory.read_writeSlot_outside t entry m hout, Memory.read_tableWrites_outside hne]

/-- A slot write keeps the cells below the slot. -/
theorem Memory.filter_below_writeSlot (t : Index) (entry : Byte → Byte) (m : List Host.Cell) :
    (Memory.writeSlot t entry m).filter (fun cell => cell.1 < 256 * t.toNat) =
      m.filter (fun cell => cell.1 < 256 * t.toNat) := by
  have habove : (m.filter fun cell => 256 * t.toNat + 256 ≤ cell.1).filter (fun cell => cell.1 < 256 * t.toNat) = [] := by
    simp only [List.filter_eq_nil_iff, List.mem_filter, decide_eq_true_eq]
    omega
  rw [Memory.writeSlot, List.filter_append, List.filter_append, habove]
  simp [List.filter_filter]

/-- A slot write keeps the cells above the slot. -/
theorem Memory.filter_above_writeSlot (t : Index) (entry : Byte → Byte) (m : List Host.Cell) :
    (Memory.writeSlot t entry m).filter (fun cell => 256 * t.toNat + 256 ≤ cell.1) =
      m.filter (fun cell => 256 * t.toNat + 256 ≤ cell.1) := by
  have hbelow : (m.filter fun cell => cell.1 < 256 * t.toNat).filter (fun cell => 256 * t.toNat + 256 ≤ cell.1) = [] := by
    simp only [List.filter_eq_nil_iff, List.mem_filter, decide_eq_true_eq]
    omega
  rw [Memory.writeSlot, List.filter_append, List.filter_append, hbelow]
  simp [List.filter_filter]

/-- Writing a slot again with the same entries changes nothing more. -/
theorem Memory.writeSlot_writeSlot (t : Index) (entry : Byte → Byte) (m : List Host.Cell) :
    Memory.writeSlot t entry (Memory.writeSlot t entry m) = Memory.writeSlot t entry m := by
  rw [Memory.writeSlot, Memory.filter_below_writeSlot, Memory.filter_above_writeSlot]
  rfl

end Sys2Proof.Machine
end

section
/-! Idempotence (20_memory.md R49): what the commands that may be repeated do when their checks pass. -/

namespace Sys2Proof.Machine

variable {s u : State} {i : Instr} {t c : Index}

/-! The checks of a command that reports no error. -/

theorem ite_some_eq_none {α : Type} {p : Prop} [Decidable p] {a : α} {o : Option α} :
    (if p then some a else o) = none ↔ ¬ p ∧ o = none := by
  split <;> simp [*]

/-- A command reports no error exactly when it passes each of the checks (R133 to R135, R81). -/
theorem State.firstError_eq_none : s.firstError i = none ↔
    (∀ c ∈ usedC i, c.toNat < s.config.nd) ∧ (∀ t ∈ usedT i, t.toNat < s.config.nt) ∧
    (∀ c ∈ needsBound i, (s.ctx c).bound = true) ∧ (∀ t ∈ needsBuilt i, s.isBuilt t = true) ∧
    (∀ t ∈ needsFree i, s.tableInUse t = false) := by
  simp [State.firstError, ite_some_eq_none]

/-! The outcome of a command whose checks pass. -/

theorem exec_build (ht : t.toNat < s.config.nt) (hfree : s.tableInUse t = false) (poly : Byte) :
    exec (.build t poly) s = .next (((s.fillSlot t (tableEntry poly)).setBuilt t).respond 0x00#8) := by
  simp [exec, execBuild, (s.slotExists_iff t).2 ht, hfree]

theorem exec_reset (hc : c.toNat < s.config.nd) (hb : (s.ctx c).bound = true) :
    exec (.reset c) s = .next ((s.setCrc c 0x00#8).respond 0x00#8) := by
  simp [exec, execReset, (s.ctxExists_iff c).2 hc, hb]

theorem exec_sum8 (hc : c.toNat < s.config.nd) (hb : (s.ctx c).bound = true) :
    exec (.sum8 c) s = .next (s.respond (s.ctx c).crc) := by
  simp [exec, execSum8, (s.ctxExists_iff c).2 hc, hb]

theorem exec_update {v b x : Byte} (ht : t.toNat < s.config.nt) (hbuilt : s.isBuilt t = true)
    (hx : s.tableRead t (v ^^^ b) = some x) : exec (.update t v b) s = .next (s.respond x) := by
  simp [exec, execUpdate, State.foldByte_eq, (s.slotExists_iff t).2 ht, hbuilt, hx]

theorem exec_tread {idx x : Byte} (ht : t.toNat < s.config.nt) (hbuilt : s.isBuilt t = true)
    (hx : s.tableRead t idx = some x) : exec (.tread t idx) s = .next (s.respond x) := by
  simp [exec, execTread, (s.slotExists_iff t).2 ht, hbuilt, hx]

/-! Reads. -/

/-- The commands that only read (R49). -/
def ReadsOnly (i : Instr) : Prop :=
  (∃ c, i = .sum8 c) ∨ (∃ t v b, i = .update t v b) ∨ (∃ t idx, i = .tread t idx) ∨ i = .size ∨ i = .blksz ∨ i = .rdstat

/-- A read that succeeds gives one response, the same in every state with the same engine, and changes nothing else. -/
theorem ReadsOnly.exec_eq (hi : ReadsOnly i) (hf : s.firstError i = none) (hx : exec i s = .next u) :
    ∃ r, ∀ s' : State, s'.config = s.config → s'.sameEngine s → exec i s' = .next (s'.reply r) := by
  obtain ⟨hc, ht, hbound, hbuilt, -⟩ := State.firstError_eq_none.1 hf
  rcases hi with ⟨c, rfl⟩ | ⟨t, v, b, rfl⟩ | ⟨t, idx, rfl⟩ | rfl | rfl | rfl
  · refine ⟨responseWord 0x00#8 0x00#8 (s.ctx c).crc, fun s' hk hs => ?_⟩
    rw [exec_sum8 (hk ▸ hc c rfl) (hs.ctx c ▸ hbound c rfl), hs.ctx, State.respond]
  · cases hread : s.tableRead t (v ^^^ b) with
    | none => simp [exec_update_noValue (ht t rfl) (hbuilt t rfl) hread] at hx
    | some x =>
      exact ⟨responseWord 0x00#8 0x00#8 x, fun s' hk hs =>
        exec_update (hk ▸ ht t rfl) (hs.isBuilt t ▸ hbuilt t rfl) (hs.tableRead _ _ ▸ hread)⟩
  · cases hread : s.tableRead t idx with
    | none => simp [exec_tread_noValue (ht t rfl) (hbuilt t rfl) hread] at hx
    | some x =>
      exact ⟨responseWord 0x00#8 0x00#8 x, fun s' hk hs =>
        exec_tread (hk ▸ ht t rfl) (hs.isBuilt t ▸ hbuilt t rfl) (hs.tableRead _ _ ▸ hread)⟩
  · exact ⟨responseWord 0x00#8 0x00#8 0x01#8, fun _ _ _ => rfl⟩
  · exact ⟨responseWord 0x00#8 0x00#8 0x01#8, fun _ _ _ => rfl⟩
  · refine ⟨responseWord 0x00#8 (configByte s.config) s.status.word, fun s' hk hs => ?_⟩
    rw [← hk, ← hs.status]
    rfl

/-- A read that succeeds only adds its response. -/
theorem ReadsOnly.sameEngine (hi : ReadsOnly i) (hf : s.firstError i = none) (hx : exec i s = .next u) :
    u.sameEngine s := by
  obtain ⟨r, hr⟩ := hi.exec_eq hf hx
  cases hx.symm.trans (hr s rfl ⟨rfl, rfl, rfl, rfl⟩)
  exact ⟨rfl, rfl, rfl, rfl⟩

/-! Repeats. -/

/-- Once `i` has led from `s` to `u`, the same command again leaves the engine's state and gives the same response
(R49). -/
def RepeatChangesNothing (i : Instr) (s u : State) : Prop :=
  ∃ v r, exec i u = .next v ∧ v.sameEngine u ∧ u.responses = s.responses ++ [r] ∧ v.responses = u.responses ++ [r]

theorem ReadsOnly.repeatChangesNothing (hi : ReadsOnly i) (hf : s.firstError i = none) (hx : exec i s = .next u) :
    RepeatChangesNothing i s u := by
  obtain ⟨r, hr⟩ := hi.exec_eq hf hx
  cases hx.symm.trans (hr s rfl ⟨rfl, rfl, rfl, rfl⟩)
  exact ⟨_, r, hr _ rfl ⟨rfl, rfl, rfl, rfl⟩, ⟨rfl, rfl, rfl, rfl⟩, rfl, rfl⟩

theorem repeatChangesNothing_reset (hf : s.firstError (.reset c) = none) (hx : exec (.reset c) s = .next u) :
    RepeatChangesNothing (.reset c) s u := by
  obtain ⟨hc, -, hbound, -⟩ := State.firstError_eq_none.1 hf
  cases hx.symm.trans (exec_reset (hc c rfl) (hbound c rfl))
  exact ⟨_, responseWord 0x00#8 0x00#8 0x00#8, exec_reset (hc c rfl) (by simpa using hbound c rfl),
    ⟨rfl, rfl, by simp, rfl⟩, rfl, rfl⟩

theorem repeatChangesNothing_build {poly : Byte} (hf : s.firstError (.build t poly) = none)
    (hx : exec (.build t poly) s = .next u) : RepeatChangesNothing (.build t poly) s u := by
  obtain ⟨-, ht, -, -, hfree⟩ := State.firstError_eq_none.1 hf
  cases hx.symm.trans (exec_build (ht t rfl) (hfree t rfl) poly)
  exact ⟨_, responseWord 0x00#8 0x00#8 0x00#8,
    exec_build (s := ((s.fillSlot t (tableEntry poly)).setBuilt t).respond 0x00#8) (ht t rfl) (hfree t rfl) poly,
    ⟨Memory.writeSlot_writeSlot t (tableEntry poly) s.table, by simp, rfl, rfl⟩, rfl, rfl⟩

/-- Settles O51: reads only add a response; RESET and BUILD write again what they have written. -/
theorem readsAndRepeatsAreIdempotent : Obligations.ReadsAndRepeatsAreIdempotent := by
  refine ⟨fun i s u hf hx hi => ReadsOnly.sameEngine hi hf hx, fun i s u hf hx hi => ?repeated⟩
  case repeated =>
    have hkind : (∃ c, i = .reset c) ∨ ReadsOnly i ∨ ∃ t poly, i = .build t poly := by
      simpa only [ReadsOnly, or_assoc] using hi
    rcases hkind with ⟨c, rfl⟩ | hread | ⟨t, poly, rfl⟩
    · exact repeatChangesNothing_reset hf hx
    · exact hread.repeatChangesNothing hf hx
    · exact repeatChangesNothing_build hf hx

end Sys2Proof.Machine
end

section
/-! Command words (30_encoding.md): the opcode map both ways, and the assembler's formulas. -/

namespace Sys2Proof

variable {w : Word} {i j : Instr} {r r' : OpcodeRow}

/-! Decoding and encoding (R61 to R65). -/

/-- Settles O1: the fields of the word are the operands, and the others are zero (`decode_encode`). -/
theorem decodeOfEncode : Obligations.DecodeOfEncode := decode_encode

theorem ifUnusedZero_eq_ok {zero : Bool} : ifUnusedZero zero i = .ok j ↔ zero = true ∧ i = j := by
  cases zero <;> simp [ifUnusedZero]

/-- A command read from the fields of a word whose `RSV` is zero has those fields in its word: the ones it uses as
operands, the others zero (R64). -/
theorem encode_of_decodeByOpcode {op : BitVec 4} {t c : Index} {v b : Byte} (h : decodeByOpcode op t c v b = .ok i) :
    encode i = packWord op 0 t c v b := by
  unfold decodeByOpcode at h
  split at h
  case h_11 => cases h
  all_goals
    rename_i hop
    obtain ⟨hzero, rfl⟩ := ifUnusedZero_eq_ok.1 h
    rw [← BitVec.setWidth_eq op, ← BitVec.ofNat_toNat, hop]
    simp only [Bool.and_eq_true, beq_iff_eq] at hzero
    simp [encode, hzero]

/-- A word decodes by its opcode, with `RSV` zero. -/
theorem decodeByOpcode_of_decode (h : decode w = .ok i) :
    fieldRSV w = 0 ∧ decodeByOpcode (fieldOP w) (fieldT w) (fieldC w) (fieldV w) (fieldB w) = .ok i := by
  simp only [decode] at h
  split_ifs at h with hop hrsv
  exact ⟨by simpa using hrsv, h⟩

/-- Decoding reads every bit of a word (R61, R64, R65). -/
theorem encode_of_decode (h : decode w = .ok i) : encode i = w := by
  obtain ⟨hrsv, hop⟩ := decodeByOpcode_of_decode h
  rw [encode_of_decodeByOpcode hop, ← hrsv, packWord_fields]

/-- Settles O2: the fields that a word's command does not use are zero, so its command holds every bit. -/
theorem encodeOfDecode : Obligations.EncodeOfDecode := fun _ _ => encode_of_decode

/-- Settles O5: the words are those of the commands; the three illegal ones fail a check of their fields. -/
theorem sampleWordsDecode : Obligations.SampleWordsDecode :=
  ⟨decode_encode (.build 0 0x07#8), decode_encode (.bind 1 0), decode_encode (.write 1 0x31#8), decode_encode (.reset 1),
    decode_encode (.sum8 1), decode_encode (.update 1 0xF4#8 0x00#8), decode_encode (.tread 0 0x80#8),
    decode_encode .size, decode_encode .blksz, decode_encode .rdstat, ⟨.opcode 0x0, rfl⟩, ⟨.unusedField, rfl⟩,
    ⟨.opcode 0xB, rfl⟩⟩

/-! The match and mask table (R63, R71). -/

theorem matchesWord_iff_fields : r.matchesWord w = true ↔
    fieldOP w &&& fieldOP r.mask = fieldOP r.pattern ∧ fieldRSV w &&& fieldRSV r.mask = fieldRSV r.pattern ∧
    fieldT w &&& fieldT r.mask = fieldT r.pattern ∧ fieldC w &&& fieldC r.mask = fieldC r.pattern ∧
    fieldV w &&& fieldV r.mask = fieldV r.pattern ∧ fieldB w &&& fieldB r.mask = fieldB r.pattern := by
  simp [OpcodeRow.matchesWord, word_eq_iff]

/-- The table in fields: each row's mask covers `OP`, `RSV` and the fields its command does not use (R63, R64). -/
theorem opcodeTable_fields : opcodeTable =
    [ ⟨"BUILD", packWord 0x1 0 0 0 0 0, packWord 0xF 0xF 0 0xF 0xFF 0⟩,
      ⟨"BIND", packWord 0x2 0 0 0 0 0, packWord 0xF 0xF 0 0 0xFF 0xFF⟩,
      ⟨"WRITE", packWord 0x3 0 0 0 0 0, packWord 0xF 0xF 0xF 0 0xFF 0⟩,
      ⟨"RESET", packWord 0x4 0 0 0 0 0, packWord 0xF 0xF 0xF 0 0xFF 0xFF⟩,
      ⟨"SUM8", packWord 0x5 0 0 0 0 0, packWord 0xF 0xF 0xF 0 0xFF 0xFF⟩,
      ⟨"UPDATE", packWord 0x6 0 0 0 0 0, packWord 0xF 0xF 0 0xF 0 0⟩,
      ⟨"TREAD", packWord 0x7 0 0 0 0 0, packWord 0xF 0xF 0 0xF 0xFF 0⟩,
      ⟨"SIZE", packWord 0x8 0 0 0 0 0, packWord 0xF 0xF 0xF 0xF 0xFF 0xFF⟩,
      ⟨"BLKSZ", packWord 0x9 0 0 0 0 0, packWord 0xF 0xF 0xF 0xF 0xFF 0xFF⟩,
      ⟨"RDSTAT", packWord 0xA 0 0 0 0 0, packWord 0xF 0xF 0xF 0xF 0xFF 0xFF⟩ ] := rfl

@[simp] theorem index_and_allOnes (x : BitVec 4) : x &&& 0xF#4 = x := BitVec.and_allOnes

@[simp] theorem byte_and_allOnes (x : Byte) : x &&& 0xFF#8 = x := BitVec.and_allOnes

/-- The word of a command matches the row of its mnemonic (R63). -/
theorem rowMatched (i : Instr) : Laws.RowMatched.Statement i := by
  cases i with
  | build t poly => exact Laws.RowMatched.build t poly
  | bind c t => exact Laws.RowMatched.bind c t
  | write c b => exact Laws.RowMatched.write c b
  | reset c => exact Laws.RowMatched.reset c
  | sum8 c => exact Laws.RowMatched.sum8 c
  | update t v b => exact Laws.RowMatched.update t v b
  | tread t idx => exact Laws.RowMatched.tread t idx
  | size => exact Laws.RowMatched.size
  | blksz => exact Laws.RowMatched.blksz
  | rdstat => exact Laws.RowMatched.rdstat

/-- A word that matches a row has the row's opcode, since every mask covers `OP`. -/
theorem fieldOP_of_matchesWord (hr : r ∈ opcodeTable) (hm : r.matchesWord w = true) : fieldOP w = fieldOP r.pattern := by
  have hmask : ∀ r ∈ opcodeTable, fieldOP r.mask = 0xF#4 := by decide
  obtain ⟨hop, -⟩ := matchesWord_iff_fields.1 hm
  rwa [hmask r hr, index_and_allOnes] at hop

/-- No two rows have the same opcode, so a word matches at most one row (R71). -/
theorem row_unique (hr : r ∈ opcodeTable) (hm : r.matchesWord w = true) (hr' : r' ∈ opcodeTable)
    (hm' : r'.matchesWord w = true) : r' = r := by
  have hinj : ∀ r ∈ opcodeTable, ∀ r' ∈ opcodeTable, fieldOP r'.pattern = fieldOP r.pattern → r' = r := by decide
  exact hinj r hr r' hr' ((fieldOP_of_matchesWord hr' hm').symm.trans (fieldOP_of_matchesWord hr hm))

/-- A word that matches a row is the word of a command: the bits its mask leaves free are operands. -/
theorem exists_encode_of_matchesWord (hr : r ∈ opcodeTable) (hm : r.matchesWord w = true) : ∃ i, w = encode i := by
  rw [matchesWord_iff_fields] at hm
  rw [opcodeTable_fields] at hr
  simp only [word_eq_iff w]
  fin_cases hr
  · exact ⟨.build (fieldT w) (fieldB w), by simpa [encode] using hm⟩
  · exact ⟨.bind (fieldC w) (fieldT w), by simpa [encode] using hm⟩
  · exact ⟨.write (fieldC w) (fieldB w), by simpa [encode] using hm⟩
  · exact ⟨.reset (fieldC w), by simpa [encode] using hm⟩
  · exact ⟨.sum8 (fieldC w), by simpa [encode] using hm⟩
  · exact ⟨.update (fieldT w) (fieldV w) (fieldB w), by simpa [encode] using hm⟩
  · exact ⟨.tread (fieldT w) (fieldB w), by simpa [encode] using hm⟩
  · exact ⟨.size, by simpa [encode] using hm⟩
  · exact ⟨.blksz, by simpa [encode] using hm⟩
  · exact ⟨.rdstat, by simpa [encode] using hm⟩

/-- Settles O3: a word that decodes is its command's word and matches that command's row alone; a word that matches a row
is a command's word and decodes. -/
theorem decodeMatchesExactlyOneRow : Obligations.DecodeMatchesExactlyOneRow := by
  intro w
  cases hd : decode w with
  | ok i =>
    obtain ⟨r, hr, hname, hm⟩ := rowMatched i
    rw [encode_of_decode hd] at hm
    exact .inl ⟨r, hr, hm, fun r' hr' hm' => row_unique hr hm hr' hm', i, rfl, hname.symm⟩
  | error e =>
    refine .inr ⟨fun r hr => Bool.eq_false_iff.2 fun hm => ?_, e, rfl⟩
    obtain ⟨i, rfl⟩ := exists_encode_of_matchesWord hr hm
    simp [decode_encode] at hd

/-! The assembler (R69). -/

theorem ofNat_shiftLeft (n x k : Nat) : BitVec.ofNat n (x <<< k) = BitVec.ofNat n x <<< k := by
  apply BitVec.eq_of_toNat_eq
  simp [Nat.shiftLeft_eq]

/-- The word whose fields are numbers that fit them, as the formulas of R69 write it. -/
theorem packWord_ofNat {op t c v b : Nat} (hop : op ≤ 15) (ht : t ≤ 15) (hc : c ≤ 15) (hv : v ≤ 255) (hb : b ≤ 255) :
    packWord (BitVec.ofNat 4 op) 0 (BitVec.ofNat 4 t) (BitVec.ofNat 4 c) (BitVec.ofNat 8 v) (BitVec.ofNat 8 b) =
      BitVec.ofNat 32 (op <<< 28 ||| t <<< 20 ||| c <<< 16 ||| v <<< 8 ||| b) := by
  rw [packWord, BitVec.setWidth_ofNat_of_le_of_lt (by decide) (show op < 2 ^ 4 by omega),
    BitVec.setWidth_ofNat_of_le_of_lt (by decide) (show t < 2 ^ 4 by omega),
    BitVec.setWidth_ofNat_of_le_of_lt (by decide) (show c < 2 ^ 4 by omega),
    BitVec.setWidth_ofNat_of_le_of_lt (by decide) (show v < 2 ^ 8 by omega),
    BitVec.setWidth_ofNat_of_le_of_lt (by decide) (show b < 2 ^ 8 by omega)]
  simp [BitVec.ofNat_or, ofNat_shiftLeft]

/-- A line is assembled to its word exactly when it is well formed (R69). -/
theorem assemble_eq_ite {l : AsmLine} {n : Nat} {fits : Prop} [Decidable fits] (hwf : l.wellFormed = true ↔ fits)
    (hword : fits → encode l.operands = BitVec.ofNat 32 n) :
    assemble l = if fits then some (BitVec.ofNat 32 n) else none := by
  by_cases hf : fits
  · simp [assemble, AsmLine.toInstr, hwf.2 hf, hf, hword hf]
  · simp [assemble, AsmLine.toInstr, hwf, hf]

/-- Settles O6: each line's word is the word of its fields, and a field without an operand is 0. -/
theorem assemblerWords : Obligations.AssemblerWords := by
  intro t c p q
  have h4 : 0 ≤ 15 := by decide
  have h8 : 0 ≤ 255 := by decide
  refine ⟨assemble_eq_ite (by simp [AsmLine.wellFormed, fitsIndex, fitsByte]) fun ⟨ht, hp⟩ => ?build,
    assemble_eq_ite (by simp [AsmLine.wellFormed, fitsIndex]) fun ⟨hc, ht⟩ => ?bind,
    assemble_eq_ite (by simp [AsmLine.wellFormed, fitsIndex, fitsByte]) fun ⟨hc, hp⟩ => ?write,
    assemble_eq_ite (by simp [AsmLine.wellFormed, fitsIndex]) fun hc => ?reset,
    assemble_eq_ite (by simp [AsmLine.wellFormed, fitsIndex]) fun hc => ?sum8,
    assemble_eq_ite (by simp [AsmLine.wellFormed, fitsIndex, fitsByte, and_assoc]) fun ⟨ht, hq, hp⟩ => ?update,
    assemble_eq_ite (by simp [AsmLine.wellFormed, fitsIndex, fitsByte]) fun ⟨ht, hp⟩ => ?tread, rfl, rfl, rfl⟩
  case build => simpa [encode, AsmLine.operands] using packWord_ofNat (op := 0x1) (by decide) ht h4 h8 hp
  case bind => simpa [encode, AsmLine.operands] using packWord_ofNat (op := 0x2) (by decide) ht hc h8 h8
  case write => simpa [encode, AsmLine.operands] using packWord_ofNat (op := 0x3) (by decide) h4 hc h8 hp
  case reset => simpa [encode, AsmLine.operands] using packWord_ofNat (op := 0x4) (by decide) h4 hc h8 h8
  case sum8 => simpa [encode, AsmLine.operands] using packWord_ofNat (op := 0x5) (by decide) h4 hc h8 h8
  case update => simpa [encode, AsmLine.operands] using packWord_ofNat (op := 0x6) (by decide) ht h4 hq hp
  case tread => simpa [encode, AsmLine.operands] using packWord_ofNat (op := 0x7) (by decide) ht h4 h8 hp

end Sys2Proof
end

section
/-! Responses (30_encoding.md R66, 60_exceptions.md R131), and WRITEN through a context that cannot be used (R70). -/

namespace Sys2Proof.Machine

variable {s u : State} {i : Instr} {c : Index} {b : Byte} {e : ErrorCode}

/-! The response of every word. -/

/-- The `CFG` byte of RDSTAT as a number: `ND - 1` above `NT - 1` (R66). -/
theorem configByte_eq_ofNat (k : Config) : configByte k = BitVec.ofNat 8 ((k.nd - 1) * 16 + (k.nt - 1)) := by
  apply BitVec.eq_of_toNat_eq
  have hnd := k.ndLess1.isLt
  have hnt := k.ntLess1.isLt
  have hor := Nat.shiftLeft_add_eq_or_of_lt hnt k.ndLess1.toNat
  simp only [configByte, Config.nd, Config.nt, BitVec.toNat_or, BitVec.toNat_shiftLeft, BitVec.toNat_setWidth,
    BitVec.toNat_ofNat, Nat.add_sub_cancel]
  rw [Nat.mod_eq_of_lt (show k.ndLess1.toNat < 2 ^ 8 by omega), Nat.mod_eq_of_lt (show k.ntLess1.toNat < 2 ^ 8 by omega),
    Nat.mod_eq_of_lt (by omega), ← hor, Nat.shiftLeft_eq]
  omega

/-- Every effect adds one response of the form of R66, with `CFG` 0x00 unless it is RDSTAT's. -/
theorem Effect.response (h : Effect i s u) : ∃ r, u.responses = s.responses ++ [r] ∧ responseWellFormed r ∧
    (i ≠ .rdstat → responseCFG r = 0x00#8) := by
  cases h with
  | failed e => exact ⟨_, rfl, responseWellFormed_fail e, by simp⟩
  | status h => exact ⟨_, rfl, responseWellFormed_ok _ _, fun hi => absurd h hi⟩
  | read | built | bound | folded | cleared => exact ⟨_, rfl, responseWellFormed_ok _ _, by simp⟩

/-- Settles O45: an illegal word fails, RDSTAT responds with the configuration, and any other command has an effect. -/
theorem oneResponsePerCommand : Obligations.OneResponsePerCommand := by
  intro w s u hx
  cases hd : decode w with
  | error e =>
    rw [executeWord_of_decode_error hd] at hx
    cases hx
    obtain ⟨hres, hst, hfail⟩ := responseWellFormed_fail .illegal
    exact ⟨_, rfl, hres, hst, hfail, by simp, by simp⟩
  | ok i =>
    rw [executeWord_of_decode_ok hd] at hx
    by_cases hi : i = .rdstat
    · subst hi
      cases hx
      obtain ⟨hres, hst, hfail⟩ := responseWellFormed_ok (configByte s.config) s.status.word
      exact ⟨_, rfl, hres, hst, hfail, by simp, by simp [configByte_eq_ofNat]⟩
    · obtain ⟨r, hr, ⟨hres, hst, hfail⟩, hcfg⟩ := (exec_effect hx).response
      exact ⟨r, hr, hres, hst, hfail, fun _ => hcfg hi, by simp [hi]⟩

/-! WRITEN. -/

/-- The checks of WRITE (R133, R135): they look at no byte. -/
theorem State.firstError_write : s.firstError (.write c b) =
    if s.ctxExists c = false then some .badIndex
    else if (s.ctx c).bound = false then some .ctxUnbound
    else none := by
  simp [State.firstError, usedC, usedT, needsBound, needsBuilt, needsFree, State.ctxExists_false_iff]

/-- A WRITE that fails its checks fails with the error they give (R137). -/
theorem exec_write_of_firstError (h : s.firstError (.write c b) = some e) :
    exec (.write c b) s = .next (s.fail e) := by
  rw [State.firstError_write] at h
  split_ifs at h with hc hb <;> cases h
  · simp [exec, execWrite, hc]
  · simp [exec, execWrite, hc, hb]

/-- The response of that WRITE, as the host reads it. -/
theorem issue_write_of_firstError (h : s.firstError (.write c b) = some e) :
    issue (.write c b) s = .next (s.fail e, responseWord e.code 0x00#8 0x00#8) := by
  simp [issue, exec_write_of_firstError h, andThen]

@[simp] theorem Status.record_err (e : ErrorCode) (x : Status) : (x.record e).err = true := by
  simp only [Status.record]
  split <;> simp [*]

@[simp] theorem responseOK_fail (e : ErrorCode) : responseOK (responseWord e.code 0x00#8 0x00#8) = false := by
  cases e <;> rfl

/-- Once WRITE of a context fails, so does each WRITE of a WRITEN: its checks look at no byte, and a failure changes
nothing they look at (R136). -/
theorem writeN_of_firstError (h : s.firstError (.write c b) = some e) (data : List Byte) :
    ∃ u, writeN c (b :: data) s = .next (u, none) ∧ u.faulted := by
  induction data generalizing s b with
  | nil => exact ⟨s.fail e, by simp [writeN, issue_write_of_firstError h, andThen], Status.record_err e s.status⟩
  | cons b' data ih =>
    have hlater : (s.fail e).firstError (.write c b') = some e := h
    obtain ⟨u, hu, hfaulted⟩ := ih hlater
    exact ⟨u, by rw [writeN, issue_write_of_firstError h]; simp [andThen, hu], hfaulted⟩

/-- Settles O46: the first WRITE fails, and so do the others; the first failure is in `STATUS`. -/
theorem failedWriteNHasNoResult : Obligations.FailedWriteNHasNoResult := by
  intro c b data s hf
  obtain ⟨e, he⟩ := Option.ne_none_iff_exists'.1 hf
  exact writeN_of_firstError he data

end Sys2Proof.Machine
end

section
/-! The entries of a built table (40_table_builder.md R80, R82): the rounds of BUILD, their linearity, and what an entry
is over GF(2). -/

namespace Sys2Proof.Machine

/-! Rounds and entries. -/

theorem and_0x80_ne_zero_iff (r : Byte) : r &&& 0x80#8 ≠ 0 ↔ r.getLsbD 7 = true := by
  revert r; decide

/-- The round of R80 with its test written as bit 7 of the register. -/
theorem buildRound_eq (poly r : Byte) :
    buildRound poly r = if r.getLsbD 7 then (r <<< 1) ^^^ poly else r <<< 1 := by
  simp only [buildRound, and_0x80_ne_zero_iff]

theorem buildRounds_eq_iterate (poly : Byte) (n : Nat) (r : Byte) : buildRounds poly n r = (buildRound poly)^[n] r := by
  induction n generalizing r with
  | zero => rfl
  | succ n ih => exact ih (buildRound poly r)

theorem tableEntry_eq_iterate (poly r : Byte) :
    tableEntry poly r = (fun r : Byte => if r.getLsbD 7 then (r <<< 1) ^^^ poly else r <<< 1)^[8] r := by
  rw [tableEntry, buildRounds_eq_iterate]
  congr 1
  exact funext (buildRound_eq poly)

/-- Linearity of one round: the XOR with the polynomial cancels where both registers have bit 7 set. -/
theorem buildRound_xor (poly a b : Byte) : buildRound poly (a ^^^ b) = buildRound poly a ^^^ buildRound poly b := by
  simp only [buildRound_eq, BitVec.getLsbD_xor, BitVec.shiftLeft_xor_distrib]
  cases a.getLsbD 7 <;> cases b.getLsbD 7
  case false.false => rfl
  case false.true => exact BitVec.xor_assoc _ _ _
  case true.false => simp [BitVec.xor_assoc, BitVec.xor_comm poly]
  case true.true =>
    have hcancel : poly ^^^ (poly ^^^ b <<< 1) = b <<< 1 := by
      rw [← BitVec.xor_assoc, BitVec.xor_self, BitVec.zero_xor]
    simp [BitVec.xor_assoc, BitVec.xor_comm (b <<< 1), hcancel]

theorem buildRounds_xor (poly : Byte) (n : Nat) (a b : Byte) :
    buildRounds poly n (a ^^^ b) = buildRounds poly n a ^^^ buildRounds poly n b := by
  induction n generalizing a b with
  | zero => rfl
  | succ n ih => rw [buildRounds, buildRound_xor, ih]; rfl

/-- The table is linear over XOR (R82). -/
theorem tableEntry_xor (poly a b : Byte) : tableEntry poly (a ^^^ b) = tableEntry poly a ^^^ tableEntry poly b :=
  buildRounds_xor poly 8 a b

@[simp] theorem tableEntry_zero (poly : Byte) : tableEntry poly 0x00#8 = 0x00#8 := by
  simpa using tableEntry_xor poly 0x00#8 0x00#8

/-- Seven rounds move bit 0 to bit 7 with no XOR, and the eighth shifts it out and leaves the polynomial (R82). -/
@[simp] theorem tableEntry_one (poly : Byte) : tableEntry poly 0x01#8 = poly := by
  simp [tableEntry, buildRounds, buildRound]

theorem buildRounds_zero_poly (n : Nat) (r : Byte) : buildRounds 0x00#8 n r = r <<< n := by
  induction n generalizing r with
  | zero => simp [buildRounds]
  | succ n ih =>
    rw [buildRounds, ih, Nat.add_comm, BitVec.shiftLeft_add]
    simp [buildRound]

/-- With the zero polynomial every bit is shifted out (R82). -/
theorem tableEntry_zero_poly (r : Byte) : tableEntry 0x00#8 r = 0x00#8 := by
  rw [tableEntry, buildRounds_zero_poly]
  simp

/-! Entries as polynomials over GF(2) (R82). -/

section GF2

open Polynomial

/-- A byte as a polynomial over GF(2), bit `k` the coefficient of `x^k` (R82). -/
noncomputable def bytePoly (x : Byte) : (ZMod 2)[X] := ∑ k ∈ Finset.range 8, if x.getLsbD k then X ^ k else 0

/-- The modulus of R82: `x^8 + P(x)`. -/
noncomputable def tableModulus (poly : Byte) : (ZMod 2)[X] := X ^ 8 + bytePoly poly

theorem bytePoly_xor (a b : Byte) : bytePoly (a ^^^ b) = bytePoly a + bytePoly b := by
  rw [bytePoly, bytePoly, bytePoly, ← Finset.sum_add_distrib]
  refine Finset.sum_congr rfl fun k _ => ?_
  cases ha : a.getLsbD k <;> cases hb : b.getLsbD k <;> simp [ha, hb, CharTwo.add_self_eq_zero]

theorem degree_bytePoly_lt (x : Byte) : (bytePoly x).degree < 8 := by
  refine mem_degreeLT.1 (Submodule.sum_mem _ fun k hk => ?_)
  have hk8 : (k : WithBot ℕ) < 8 := by exact_mod_cast Finset.mem_range.1 hk
  rw [mem_degreeLT]
  split
  · rwa [degree_X_pow]
  · rw [degree_zero]; exact WithBot.bot_lt_coe 8

theorem tableModulus_monic (poly : Byte) : (tableModulus poly).Monic := monic_X_pow_add (degree_bytePoly_lt poly)

theorem degree_tableModulus (poly : Byte) : (tableModulus poly).degree = 8 := by
  have hlt : (bytePoly poly).degree < ((X : (ZMod 2)[X]) ^ 8).degree := by
    rw [degree_X_pow]
    exact degree_bytePoly_lt poly
  rw [tableModulus, degree_add_eq_left_of_degree_lt hlt, degree_X_pow]
  rfl

/-- A shift by one bit is multiplication by `x`, less what bit 7 becomes. -/
theorem X_mul_bytePoly (r : Byte) : X * bytePoly r = bytePoly (r <<< 1) + if r.getLsbD 7 then X ^ 8 else 0 := by
  simp only [bytePoly, Finset.mul_sum]
  rw [Finset.sum_range_succ, Finset.sum_range_succ' _ 7]
  have hlow : ∀ k ∈ Finset.range 7, X * (if r.getLsbD k then (X : (ZMod 2)[X]) ^ k else 0) =
      if (r <<< 1).getLsbD (k + 1) then X ^ (k + 1) else 0 := fun k hk => by
    have hk7 := Finset.mem_range.1 hk
    simp [BitVec.getLsbD_shiftLeft, show k + 1 < 8 by omega, pow_succ', -BitVec.getLsbD_eq_getElem]
  rw [Finset.sum_congr rfl hlow]
  simp [← pow_succ']

/-- One round is multiplication by `x` modulo `x^8 + P(x)`. -/
theorem tableModulus_dvd_round (poly r : Byte) : tableModulus poly ∣ X * bytePoly r - bytePoly (buildRound poly r) := by
  rw [X_mul_bytePoly, buildRound_eq]
  split
  · rw [bytePoly_xor, add_sub_add_left_eq_sub, CharTwo.sub_eq_add]
    rfl
  · simp

theorem tableModulus_dvd_rounds (poly : Byte) (n : Nat) (r : Byte) :
    tableModulus poly ∣ bytePoly r * X ^ n - bytePoly (buildRounds poly n r) := by
  induction n generalizing r with
  | zero => simp [buildRounds]
  | succ n ih =>
    have hround := (tableModulus_dvd_round poly r).mul_right (X ^ n)
    convert hround.add (ih (buildRound poly r)) using 1
    rw [buildRounds]
    ring

/-- Entry `i` is `i(x) * x^8 mod (x^8 + P(x))` (R82). -/
theorem bytePoly_tableEntry (poly r : Byte) : (bytePoly r * X ^ 8) %ₘ tableModulus poly = bytePoly (tableEntry poly r) := by
  rw [modByMonic_eq_of_dvd_sub (tableModulus_monic poly) (tableModulus_dvd_rounds poly 8 r),
    (modByMonic_eq_self_iff (tableModulus_monic poly)).2 (by rw [degree_tableModulus]; exact degree_bytePoly_lt _)]
  rfl

end GF2

end Sys2Proof.Machine
end

section
/-! The outcomes of BUILD and TREAD (40_table_builder.md R80, R81, R84): their words, their errors, and a slot that holds
the table of a polynomial; and from these the statements about the table builder. -/

namespace Sys2Proof.Machine

variable {s u : State} {i : Instr} {w : Word} {t : Index} {poly idx : Byte}

/-! Words (R63, R64). -/

/-- A row is found by its opcode (R63). -/
theorem opcodeRow_eq_of_fieldOP {r r' : OpcodeRow} (hr : r ∈ opcodeTable) (hr' : r' ∈ opcodeTable)
    (hop : fieldOP r'.pattern = fieldOP r.pattern) : r' = r := by
  have hinj : ∀ r ∈ opcodeTable, ∀ r' ∈ opcodeTable, fieldOP r'.pattern = fieldOP r.pattern → r' = r := by decide
  exact hinj r hr r' hr' hop

/-- A word with a row's opcode that does not match the row is illegal: the row of a legal word is found by its opcode. -/
theorem executeWord_of_not_matchesWord {r : OpcodeRow} (hr : r ∈ opcodeTable) (hop : fieldOP w = fieldOP r.pattern)
    (hm : ¬ r.matchesWord w = true) : executeWord w s = .next (s.afterFailure 1) := by
  cases hd : decode w with
  | error e => rw [executeWord_of_decode_error hd, State.fail_eq]; rfl
  | ok j =>
    obtain ⟨r', hr', -, hm'⟩ := rowMatched j
    rw [encode_of_decode hd] at hm'
    obtain rfl := opcodeRow_eq_of_fieldOP hr hr' ((fieldOP_of_matchesWord hr' hm').symm.trans hop)
    exact absurd hm' hm

/-- A word with a row's opcode is the row's command where the row's mask and pattern say so, and else illegal (R63, R64,
R132). -/
theorem executeWord_of_row {r : OpcodeRow} (hr : r ∈ opcodeTable) (hop : fieldOP w = fieldOP r.pattern)
    (hi : r.matchesWord w = true → w = encode i) :
    executeWord w s = if w &&& r.mask = r.pattern then exec i s else .next (s.afterFailure 1) := by
  have hmatch : r.matchesWord w = true ↔ w &&& r.mask = r.pattern := by simp [OpcodeRow.matchesWord]
  split
  · rename_i hm
    rw [hi (hmatch.2 hm), executeWord_encode]
  · rename_i hm
    exact executeWord_of_not_matchesWord hr hop (mt hmatch.1 hm)

theorem executeWord_build (hop : fieldOP w = 0x1#4) : executeWord w s =
    if w &&& 0xFF0FFF00#32 = 0x10000000#32 then exec (.build (fieldT w) (fieldB w)) s else .next (s.afterFailure 1) := by
  refine executeWord_of_row (r := ⟨"BUILD", packWord 0x1 0 0 0 0 0, packWord 0xF 0xF 0 0xF 0xFF 0⟩)
    (opcodeTable_fields ▸ by simp) (by simpa using hop) fun hm => (word_eq_iff _ _).2 ?_
  simpa [encode] using matchesWord_iff_fields.1 hm

theorem executeWord_tread (hop : fieldOP w = 0x7#4) : executeWord w s =
    if w &&& 0xFF0FFF00#32 = 0x70000000#32 then exec (.tread (fieldT w) (fieldB w)) s else .next (s.afterFailure 1) := by
  refine executeWord_of_row (r := ⟨"TREAD", packWord 0x7 0 0 0 0 0, packWord 0xF 0xF 0 0xF 0xFF 0⟩)
    (opcodeTable_fields ▸ by simp) (by simpa using hop) fun hm => (word_eq_iff _ _).2 ?_
  simpa [encode] using matchesWord_iff_fields.1 hm

/-! Errors (R133, R134, R81). -/

theorem exec_build_badIndex (ht : s.config.nt ≤ t.toNat) : exec (.build t poly) s = .next (s.fail .badIndex) := by
  simp [exec, execBuild, (s.slotExists_false_iff t).2 ht]

theorem exec_build_tableInUse (ht : t.toNat < s.config.nt) (huse : s.tableInUse t = true) :
    exec (.build t poly) s = .next (s.fail .tableInUse) := by
  simp [exec, execBuild, (s.slotExists_iff t).2 ht, huse]

theorem exec_tread_badIndex (ht : s.config.nt ≤ t.toNat) : exec (.tread t idx) s = .next (s.fail .badIndex) := by
  simp [exec, execTread, (s.slotExists_false_iff t).2 ht]

theorem exec_tread_tableUnbuilt (ht : t.toNat < s.config.nt) (hbuilt : s.isBuilt t = false) :
    exec (.tread t idx) s = .next (s.fail .tableUnbuilt) := by
  simp [exec, execTread, (s.slotExists_iff t).2 ht, hbuilt]

/-! A slot that holds a table (R80, R83). -/

/-- Slot `t` exists, is built, and holds the table of `poly`. -/
structure State.HoldsTable (t : Index) (poly : Byte) (s : State) : Prop where
  slotExists : t.toNat < s.config.nt
  isBuilt : s.isBuilt t = true
  tableRead : ∀ idx, s.tableRead t idx = some (tableEntry poly idx)

/-- BUILD of a free slot leaves the whole table of its polynomial there, whatever the slot held (R80, R85). -/
theorem exists_exec_build_holdsTable (ht : t.toNat < s.config.nt) (hfree : s.tableInUse t = false) (poly : Byte) :
    ∃ u, exec (.build t poly) s = .next u ∧ u.HoldsTable t poly :=
  ⟨_, exec_build ht hfree poly, ht, by simp, by simp⟩

/-- Any command but a BUILD of the slot leaves its table there (R42, R81). -/
theorem State.HoldsTable.of_effect (h : s.HoldsTable t poly) (he : Effect i s u) (hi : ∀ p, i ≠ .build t p) :
    u.HoldsTable t poly where
  slotExists := by rw [he.port_frame.1]; exact h.slotExists
  isBuilt := he.isBuilt_mono h.isBuilt
  tableRead idx := by
    rw [← h.tableRead idx]
    by_contra hne
    obtain ⟨⟨p, hp⟩, -⟩ := he.build_of_tableRead_ne hne
    exact hi p hp

theorem State.HoldsTable.of_execAll {cmds : List Instr} (h : s.HoldsTable t poly) (hcmds : ∀ p, .build t p ∉ cmds)
    (hx : execAll cmds s = .next u) : u.HoldsTable t poly := by
  induction cmds generalizing s with
  | nil => cases hx; exact h
  | cons i rest ih =>
    obtain ⟨v, hv, hrest⟩ := andThen_eq_next.1 hx
    have hi : ∀ p, i ≠ .build t p := fun p hp => hcmds p (by simp [hp])
    exact ih (h.of_effect (exec_effect hv) hi) (fun p hp => hcmds p (List.mem_cons_of_mem i hp)) hrest

theorem State.HoldsTable.tread (h : s.HoldsTable t poly) (idx : Byte) :
    exec (.tread t idx) s = .next (s.afterResponse (tableEntry poly idx)) := by
  rw [exec_tread h.slotExists h.isBuilt (h.tableRead idx), State.respond_eq]

theorem State.HoldsTable.update (h : s.HoldsTable t poly) (v b : Byte) :
    exec (.update t v b) s = .next (s.afterResponse (tableEntry poly (v ^^^ b))) := by
  rw [exec_update h.slotExists h.isBuilt (h.tableRead _), State.respond_eq]

/-! The statements. -/

/-- Settles O18: the table is `tableEntry P`, and each property is the lemma about it. -/
theorem builtTableAlgebra : Obligations.BuiltTableAlgebra := by
  intro t P s ht hfree
  obtain ⟨u, hu, htable⟩ := exists_exec_build_holdsTable ht hfree P
  refine ⟨u, tableEntry P, hu, htable.tableRead, tableEntry_zero P, tableEntry_one P, tableEntry_xor P,
    bytePoly_tableEntry P, fun hP i => ?zeroPoly⟩
  case zeroPoly => rw [hP, tableEntry_zero_poly]

/-- Settles O19: BUILD leaves the new table there, commands that are no BUILD of the slot keep it, and TREAD and UPDATE read
it. -/
theorem rebuildReplacesTable : Obligations.RebuildReplacesTable := by
  intro t poly s ht _ hfree
  obtain ⟨u, hu, htable⟩ := exists_exec_build_holdsTable ht hfree poly
  refine ⟨u, hu, htable.isBuilt, htable.tableRead, fun between v hbetween hv => ?later⟩
  case later =>
    have hlater : v.HoldsTable t poly := htable.of_execAll hbetween hv
    exact ⟨hlater.tread, hlater.update⟩

/-- Settles O20: both slots hold the table of the polynomial. -/
theorem buildDependsOnPolynomialOnly : Obligations.BuildDependsOnPolynomialOnly := by
  intro t t' poly s s' ht hfree ht' hfree'
  obtain ⟨u, hu, htable⟩ := exists_exec_build_holdsTable ht hfree poly
  obtain ⟨u', hu', htable'⟩ := exists_exec_build_holdsTable ht' hfree' poly
  exact ⟨u, u', hu, hu', fun i => ⟨by rw [htable.tableRead, htable'.tableRead], by simp [htable.tableRead]⟩⟩

/-- Settles O17: the word by its row, the errors by the checks, and the next state field by field. -/
theorem buildRule : Obligations.BuildRule := by
  intro t poly s
  refine ⟨fun w hop => executeWord_build hop, fun ht => ?badIndex, fun ht huse => ?tableInUse, fun ht hfree => ?built⟩
  case badIndex => rw [exec_build_badIndex ht, State.fail_eq]; rfl
  case tableInUse => rw [exec_build_tableInUse ht ((s.tableInUse_iff t).2 huse), State.fail_eq]; rfl
  case built =>
    refine ⟨_, exec_build ht ((s.tableInUse_false_iff t).2 hfree) poly, fun i => ?entries, by simp, fun a ha => ?outside,
      fun t' ht' => by simp [ht'], rfl⟩
    case entries => simp [tableEntry_eq_iterate]
    case outside => exact Memory.read_writeSlot_outside t (tableEntry poly) s.table ha

/-- Settles O22: the word by its row, the errors by the checks, the entry read; under the invariant a built slot holds the
table of a polynomial, whose entries 0x00 and 0x01 are 0x00 and the polynomial. -/
theorem treadRule : Obligations.TreadRule := by
  intro t i s
  refine ⟨fun w hop => executeWord_tread hop, fun ht => ?badIndex, fun ht hbuilt => ?tableUnbuilt,
    fun x ht hbuilt hx => ?entry, fun hinv _ hbuilt => ?polynomial⟩
  case badIndex => rw [exec_tread_badIndex ht, State.fail_eq]; rfl
  case tableUnbuilt => rw [exec_tread_tableUnbuilt ht hbuilt, State.fail_eq]; rfl
  case entry => rw [exec_tread ht hbuilt hx, State.respond_eq]
  case polynomial =>
    obtain ⟨poly, htable⟩ := hinv.builtTable t hbuilt
    exact ⟨poly, htable i, by rw [htable, tableEntry_zero], by rw [htable, tableEntry_one]⟩

end Sys2Proof.Machine
end

section
/-! The kernel's fold (41_checksum_update.md R89, R91, R93): it is the library's left fold of `kernelStep`, and its laws are
those of left folds. -/

namespace Sys2Proof.Machine

variable {tab : Byte → Byte} {v b : Byte}

@[simp] theorem kernelFold_nil : kernelFold tab v [] = v := rfl

@[simp] theorem kernelFold_cons (data : List Byte) :
    kernelFold tab v (b :: data) = kernelFold tab (tab (v ^^^ b)) data := rfl

theorem kernelFold_eq_foldl (data : List Byte) : kernelFold tab v data = data.foldl (kernelStep tab) v := by
  induction data generalizing v with
  | nil => rfl
  | cons b data ih => exact ih

/-- Concatenation (R93): "the source's incremental-equivalence property". -/
theorem kernelFold_append (d1 d2 : List Byte) :
    kernelFold tab v (d1 ++ d2) = kernelFold tab (kernelFold tab v d1) d2 := by
  simp only [kernelFold_eq_foldl, List.foldl_append]

/-- Data followed by its own fold gives entry 0x00, whatever the table: the last step XORs the running value with itself
(R93). -/
theorem kernelFold_append_self (data : List Byte) :
    kernelFold tab v (data ++ [kernelFold tab v data]) = tab 0x00#8 := by
  rw [kernelFold_append, kernelFold_cons, kernelFold_nil, BitVec.xor_self]

/-- Settles O24: the laws of left folds, and entry 0x00 of a table. -/
theorem foldLaws : Obligations.FoldLaws := by
  refine ⟨fun _ _ => kernelFold_nil, fun _ _ => kernelFold_append, fun tab tab' v d heq => ?sameTable,
    fun poly v d => ⟨kernelFold_append_self d, tableEntry_zero poly⟩⟩
  case sameTable => rw [funext heq]

end Sys2Proof.Machine
end

section
/-! UPDATE and the sequences of it (41_checksum_update.md R90, R92; 30_encoding.md R70): its word, its errors, and
UPDATESEQ and CHECKSUM through a slot whose entries have values. -/

namespace Sys2Proof.Machine

variable {s u : State} {i : Instr} {w : Word} {t : Index} {v b d : Byte} {tab : Byte → Byte}

theorem executeWord_update (hop : fieldOP w = 0x6#4) : executeWord w s =
    if w &&& 0xFF0F0000#32 = 0x60000000#32 then exec (.update (fieldT w) (fieldV w) (fieldB w)) s
    else .next (s.afterFailure 1) := by
  refine executeWord_of_row (r := ⟨"UPDATE", packWord 0x6 0 0 0 0 0, packWord 0xF 0xF 0 0xF 0 0⟩)
    (opcodeTable_fields ▸ by simp) (by simpa using hop) fun hm => (word_eq_iff _ _).2 ?_
  simpa [encode] using matchesWord_iff_fields.1 hm

theorem exec_update_badIndex (ht : s.config.nt ≤ t.toNat) : exec (.update t v b) s = .next (s.fail .badIndex) := by
  simp [exec, execUpdate, (s.slotExists_false_iff t).2 ht]

theorem exec_update_tableUnbuilt (ht : t.toNat < s.config.nt) (hbuilt : s.isBuilt t = false) :
    exec (.update t v b) s = .next (s.fail .tableUnbuilt) := by
  simp [exec, execUpdate, (s.slotExists_iff t).2 ht, hbuilt]

/-! What the host reads of a command that succeeds (R66). -/

theorem issue_of_exec_respond (hx : exec i s = .next (u.respond d)) :
    issue i s = .next (u.respond d, responseWord 0x00#8 0x00#8 d) := by
  simp [issue, hx, andThen]

@[simp] theorem responseOK_ok (cfg data : Byte) : responseOK (responseWord 0x00#8 cfg data) = true := by
  simp [responseOK]

/-! UPDATESEQ. -/

/-- Each UPDATE responds the next running value and leaves the table, so UPDATESEQ gives the fold of the data (R90). -/
theorem updateSeq_eq_fold (ht : t.toNat < s.config.nt) (hbuilt : s.isBuilt t = true)
    (htab : ∀ idx, s.tableRead t idx = some (tab idx)) (data : List Byte) :
    ∃ u, updateSeq t v data s = .next (u, some (kernelFold tab v data)) ∧ u.sameEngine s := by
  induction data generalizing v s with
  | nil => exact ⟨s, rfl, rfl, rfl, rfl, rfl⟩
  | cons b data ih =>
    have hfirst := issue_of_exec_respond (exec_update ht hbuilt (htab (v ^^^ b)))
    obtain ⟨u, hu, hsame⟩ := ih (s := s.respond (tab (v ^^^ b))) (v := tab (v ^^^ b)) ht hbuilt htab
    exact ⟨u, by simp [updateSeq, hfirst, andThen, hu], hsame.table, hsame.tbuilt, hsame.contexts, hsame.status⟩

/-- Under the invariant a built slot holds the table of some polynomial, the same for all its entries (R80). -/
theorem State.Inv.exists_holdsTable (hi : s.Inv) (hbuilt : s.isBuilt t = true) : ∃ poly, s.HoldsTable t poly := by
  obtain ⟨poly, htable⟩ := hi.builtTable t hbuilt
  exact ⟨poly, hi.builtExists t hbuilt, hbuilt, htable⟩

/-- Settles O23: the word by its row, the errors by the checks, the entry read, and UPDATESEQ by induction on its data. -/
theorem updateRule : Obligations.UpdateRule := by
  intro t v b s
  refine ⟨fun w hop => executeWord_update hop, fun ht => ?badIndex, fun ht hbuilt => ?tableUnbuilt,
    fun x ht hbuilt hx => ?entry, fun hinv _ hbuilt => ?polynomial,
    fun data tab ht hbuilt htab => updateSeq_eq_fold ht hbuilt htab data⟩
  case badIndex => rw [exec_update_badIndex ht, State.fail_eq]; rfl
  case tableUnbuilt => rw [exec_update_tableUnbuilt ht hbuilt, State.fail_eq]; rfl
  case entry => rw [exec_update ht hbuilt hx, State.respond_eq]
  case polynomial =>
    obtain ⟨poly, htable⟩ := hinv.exists_holdsTable hbuilt
    exact ⟨poly, htable.tableRead _, by rw [htable.tableRead, tableEntry_zero]⟩

/-- The check value (R92): "123456789" through the table of 0x07. -/
theorem kernelFold_checkValue : kernelFold (tableEntry 0x07#8) 0x00#8
    [0x31#8, 0x32#8, 0x33#8, 0x34#8, 0x35#8, 0x36#8, 0x37#8, 0x38#8, 0x39#8] = 0xF4#8 := by
  decide +kernel

/-- Settles O25: CHECKSUM is UPDATESEQ from 0x00. -/
theorem checksumIsFoldFromZero : Obligations.ChecksumIsFoldFromZero :=
  ⟨fun _ data _ _ ht hbuilt htab => updateSeq_eq_fold ht hbuilt htab data, kernelFold_checkValue⟩

end Sys2Proof.Machine
end

section
/-! A digest against the one-shot checksum (41_checksum_update.md R94): BIND and WRITE when their checks pass, and the state
that WRITEN of a sequence leaves. -/

namespace Sys2Proof.Machine

variable {s : State} {c t : Index} {b x : Byte} {tab : Byte → Byte}

theorem exec_bind (hc : c.toNat < s.config.nd) (ht : t.toNat < s.config.nt) (hbuilt : s.isBuilt t = true) :
    exec (.bind c t) s = .next ((s.setCtx c { crc := 0x00#8, bindt := t, bound := true }).respond 0x00#8) := by
  simp [exec, execBind, (s.ctxExists_iff c).2 hc, (s.slotExists_iff t).2 ht, hbuilt]

theorem exec_write (hc : c.toNat < s.config.nd) (hb : (s.ctx c).bound = true)
    (hx : s.tableRead (s.ctx c).bindt ((s.ctx c).crc ^^^ b) = some x) :
    exec (.write c b) s = .next ((s.setCrc c x).respond 0x01#8) := by
  simp [exec, execWrite, State.foldByte_eq, (s.ctxExists_iff c).2 hc, hb, hx]

/-! WRITEN. -/

@[simp] theorem State.setCrc_self (s : State) (c : Index) : s.setCrc c (s.ctx c).crc = s := by
  rw [State.setCrc, State.setCtx, State.ctx, Vector.set_getElem_self]

/-- The state after `n` WRITEs of context `c` that leave `v` there: `CRC[c]`, and `n` responses of one byte processed each
(R103, R104). -/
def State.afterWrites (c : Index) (v : Byte) (n : Nat) (s : State) : State :=
  { s.setCrc c v with responses := s.responses ++ List.replicate n (responseWord 0x00#8 0x00#8 0x01#8) }

@[simp] theorem State.afterWrites_config (v : Byte) (n : Nat) : (s.afterWrites c v n).config = s.config := rfl

@[simp] theorem State.ctx_afterWrites (v : Byte) (n : Nat) :
    (s.afterWrites c v n).ctx c = { s.ctx c with crc := v } :=
  (s.ctx_setCrc c c v).trans (if_pos rfl)

/-- No WRITE has happened. -/
theorem State.afterWrites_zero : s.afterWrites c (s.ctx c).crc 0 = s := by
  simp [State.afterWrites]

/-- One WRITE, and then `n` more. -/
theorem State.afterWrites_succ (v : Byte) (n : Nat) :
    ((s.setCrc c x).respond 0x01#8).afterWrites c v n = s.afterWrites c v (n + 1) := by
  simp [State.afterWrites, State.setCrc, State.setCtx, State.respond, State.reply, State.ctx, List.replicate_succ]

/-- WRITEN through a table whose entries have values leaves the fold of its data from `CRC[c]`, and counts the bytes
(R104). -/
theorem writeN_eq_fold (hc : c.toNat < s.config.nd) (hb : (s.ctx c).bound = true)
    (htab : ∀ idx, s.tableRead (s.ctx c).bindt idx = some (tab idx)) (data : List Byte) :
    writeN c data s =
      .next (s.afterWrites c (kernelFold tab (s.ctx c).crc data) data.length, some data.length) := by
  induction data generalizing s with
  | nil => rw [writeN, kernelFold_nil, List.length_nil, State.afterWrites_zero]
  | cons b data ih =>
    have hfirst := issue_of_exec_respond (exec_write hc hb (htab ((s.ctx c).crc ^^^ b)))
    have hrest := ih (s := (s.setCrc c (tab ((s.ctx c).crc ^^^ b))).respond 0x01#8) hc (by simpa using hb)
      (by simpa using htab)
    rw [State.afterWrites_succ] at hrest
    simp [writeN, hfirst, andThen, hrest, Nat.add_comm]

/-- Settles O26: WRITE and UPDATE read the same entry; and WRITEN from a fresh binding and CHECKSUM are both the fold from
0x00 through the slot's table. -/
theorem digestAgreesWithOneShot : Obligations.DigestAgreesWithOneShot := by
  refine ⟨fun c b s hinv hb => ?oneByte, fun c t data s hinv hc ht hbuilt => ?sequence⟩
  case oneByte =>
    obtain ⟨poly, htable⟩ := hinv.exists_holdsTable (hinv.boundBuilt c hb).2
    exact ⟨_, exec_write (hinv.boundExists c hb) hb (htable.tableRead _), by simp [htable.update]⟩
  case sequence =>
    obtain ⟨poly, htable⟩ := hinv.exists_holdsTable hbuilt
    obtain ⟨u3, hchecksum, -⟩ := updateSeq_eq_fold (v := 0x00#8) ht hbuilt htable.tableRead data
    have hwriteN := writeN_eq_fold (c := c)
      (s := (s.setCtx c { crc := 0x00#8, bindt := t, bound := true }).respond 0x00#8) hc (by simp)
      (by simpa using htable.tableRead) data
    refine ⟨_, _, u3, kernelFold (tableEntry poly) 0x00#8 data, exec_bind hc ht hbuilt, hwriteN, ?sum8, hchecksum⟩
    case sum8 =>
      rw [exec_sum8 (by simpa using hc) (by simp), State.respond_eq]
      simp

end Sys2Proof.Machine
end

section
/-! The digest commands and the host's operations on them (42_digest.md): their words, their errors, their next states. -/

namespace Sys2Proof.Machine

variable {s : State} {i : Instr} {w : Word} {c t : Index}

/-! Words (R63, R64). -/

theorem executeWord_bind (hop : fieldOP w = 0x2#4) : executeWord w s =
    if w &&& 0xFF00FFFF#32 = 0x20000000#32 then exec (.bind (fieldC w) (fieldT w)) s else .next (s.afterFailure 1) := by
  refine executeWord_of_row (r := ⟨"BIND", packWord 0x2 0 0 0 0 0, packWord 0xF 0xF 0 0 0xFF 0xFF⟩)
    (opcodeTable_fields ▸ by simp) (by simpa using hop) fun hm => (word_eq_iff _ _).2 ?_
  simpa [encode] using matchesWord_iff_fields.1 hm

theorem executeWord_write (hop : fieldOP w = 0x3#4) : executeWord w s =
    if w &&& 0xFFF0FF00#32 = 0x30000000#32 then exec (.write (fieldC w) (fieldB w)) s else .next (s.afterFailure 1) := by
  refine executeWord_of_row (r := ⟨"WRITE", packWord 0x3 0 0 0 0 0, packWord 0xF 0xF 0xF 0 0xFF 0⟩)
    (opcodeTable_fields ▸ by simp) (by simpa using hop) fun hm => (word_eq_iff _ _).2 ?_
  simpa [encode] using matchesWord_iff_fields.1 hm

theorem executeWord_reset (hop : fieldOP w = 0x4#4) : executeWord w s =
    if w &&& 0xFFF0FFFF#32 = 0x40000000#32 then exec (.reset (fieldC w)) s else .next (s.afterFailure 1) := by
  refine executeWord_of_row (r := ⟨"RESET", packWord 0x4 0 0 0 0 0, packWord 0xF 0xF 0xF 0 0xFF 0xFF⟩)
    (opcodeTable_fields ▸ by simp) (by simpa using hop) fun hm => (word_eq_iff _ _).2 ?_
  simpa [encode] using matchesWord_iff_fields.1 hm

theorem executeWord_sum8 (hop : fieldOP w = 0x5#4) : executeWord w s =
    if w &&& 0xFFF0FFFF#32 = 0x50000000#32 then exec (.sum8 (fieldC w)) s else .next (s.afterFailure 1) := by
  refine executeWord_of_row (r := ⟨"SUM8", packWord 0x5 0 0 0 0 0, packWord 0xF 0xF 0xF 0 0xFF 0xFF⟩)
    (opcodeTable_fields ▸ by simp) (by simpa using hop) fun hm => (word_eq_iff _ _).2 ?_
  simpa [encode] using matchesWord_iff_fields.1 hm

/-- A command without operands is one word: any other word of its opcode is illegal (R64, R132). -/
theorem executeWord_of_noOperands {r : OpcodeRow} (hr : r ∈ opcodeTable) (hmask : r.mask = 0xFFFFFFFF#32)
    (hi : encode i = r.pattern) (hop : fieldOP w = fieldOP r.pattern) :
    executeWord w s = if w = r.pattern then exec i s else .next (s.afterFailure 1) := by
  have hand : w &&& r.mask = w := hmask ▸ BitVec.and_allOnes
  have hword : r.matchesWord w = true → w = encode i := by simp [OpcodeRow.matchesWord, hand, hi]
  simpa only [hand] using executeWord_of_row (s := s) hr hop hword

/-! Errors (R133 to R135). -/

/-- A command whose context does not exist fails with BAD_INDEX, before any other check (R133, R137). -/
theorem exec_badIndex_of_usedC (hi : c ∈ usedC i) (hc : s.config.nd ≤ c.toNat) : exec i s = .next (s.fail .badIndex) := by
  have hno : s.ctxExists c = false := (s.ctxExists_false_iff c).2 hc
  cases i with
  | bind | write | reset | sum8 => cases hi; simp [exec, execBind, execWrite, execReset, execSum8, hno]
  | build | update | tread | size | blksz | rdstat => cases hi

/-- A command that needs its context bound fails with CTX_UNBOUND where it exists and is not (R135). -/
theorem exec_ctxUnbound_of_needsBound (hi : c ∈ needsBound i) (hc : c.toNat < s.config.nd)
    (hb : (s.ctx c).bound = false) : exec i s = .next (s.fail .ctxUnbound) := by
  have hyes : s.ctxExists c = true := (s.ctxExists_iff c).2 hc
  cases i with
  | write | reset | sum8 => cases hi; simp [exec, execWrite, execReset, execSum8, hyes, hb]
  | build | bind | update | tread | size | blksz | rdstat => cases hi

theorem exec_bind_badSlot (hc : c.toNat < s.config.nd) (ht : s.config.nt ≤ t.toNat) :
    exec (.bind c t) s = .next (s.fail .badIndex) := by
  simp [exec, execBind, (s.ctxExists_iff c).2 hc, (s.slotExists_false_iff t).2 ht]

theorem exec_bind_tableUnbuilt (hc : c.toNat < s.config.nd) (ht : t.toNat < s.config.nt) (hbuilt : s.isBuilt t = false) :
    exec (.bind c t) s = .next (s.fail .tableUnbuilt) := by
  simp [exec, execBind, (s.ctxExists_iff c).2 hc, (s.slotExists_iff t).2 ht, hbuilt]

/-! BIND (R100, R102). -/

/-- Settles O27: the word by its row, the errors by the checks, and the next state context by context. -/
theorem bindRule : Obligations.BindRule := by
  intro c t s
  refine ⟨fun w hop => executeWord_bind hop, fun hc => ?badContext, fun hc ht => ?badSlot,
    fun hc ht hbuilt => ?tableUnbuilt, fun hc ht hbuilt => ?bound⟩
  case badContext => rw [exec_badIndex_of_usedC rfl hc, State.fail_eq]; rfl
  case badSlot => rw [exec_bind_badSlot hc ht, State.fail_eq]; rfl
  case tableUnbuilt => rw [exec_bind_tableUnbuilt hc ht hbuilt, State.fail_eq]; rfl
  case bound => exact ⟨_, exec_bind hc ht hbuilt, by simp, fun d hd => by simp [hd], rfl⟩

/-- A slot that no context but `c` names is in use no more once `c` is written with another slot (R81). -/
theorem State.tableInUse_setCtx_false {x : Context} (hx : x.bindt ≠ t)
    (hothers : ∀ d, d ≠ c → ¬ ((s.ctx d).bound = true ∧ (s.ctx d).bindt = t)) : (s.setCtx c x).tableInUse t = false := by
  refine (State.tableInUse_false_iff _ t).2 fun ⟨d, _, hb, ht⟩ => ?_
  by_cases hdc : d = c
  · exact hx (by simpa [hdc] using ht)
  · exact hothers d hdc ⟨by simpa [hdc] using hb, by simpa [hdc] using ht⟩

/-- Settles O28: BIND writes the context whatever it held, and after it no context names the old slot. -/
theorem rebindStartsNewDigest : Obligations.RebindStartsNewDigest := by
  intro c t s hc ht hbuilt _
  exact ⟨_, exec_bind hc ht hbuilt, by simp, by simp, by simp,
    fun hne hothers => State.tableInUse_setCtx_false (s := s) (Ne.symm hne) hothers⟩

/-! WRITE and WRITEN (R103, R104). -/

/-- Settles O29: the word by its row, the errors by the checks, and the next state context by context; under the invariant a
bound context's slot holds the table of a polynomial. -/
theorem writeRule : Obligations.WriteRule := by
  intro c b s
  refine ⟨fun w hop => executeWord_write hop, fun hc => ?badIndex, fun hc hb => ?ctxUnbound, fun x hc hb hx => ?folded,
    fun hinv hb => ?polynomial⟩
  case badIndex => rw [exec_badIndex_of_usedC rfl hc, State.fail_eq]; rfl
  case ctxUnbound => rw [exec_ctxUnbound_of_needsBound rfl hc hb, State.fail_eq]; rfl
  case folded => exact ⟨_, exec_write hc hb hx, by simp [hb], fun d hd => by simp [hd], rfl⟩
  case polynomial =>
    obtain ⟨poly, htable⟩ := hinv.exists_holdsTable (hinv.boundBuilt c hb).2
    exact ⟨poly, htable.tableRead _, by rw [htable.tableRead, tableEntry_zero]⟩

theorem State.ctx_afterWrites_of_ne {d : Index} (hd : d ≠ c) (v : Byte) (n : Nat) :
    (s.afterWrites c v n).ctx d = s.ctx d :=
  (s.ctx_setCrc d c v).trans (if_neg hd)

/-- Settles O30: WRITEN leaves the fold of its data in the context (`writeN_eq_fold`), and the state after that many WRITEs
differs there and in its responses only. -/
theorem writeNFoldsAndCounts : Obligations.WriteNFoldsAndCounts := by
  intro c data tab s hc hb htab
  refine ⟨_, writeN_eq_fold hc hb htab data, by simp [hb], fun d hd => State.ctx_afterWrites_of_ne hd _ _, rfl, rfl, rfl,
    ?empty⟩
  case empty =>
    rintro rfl
    exact State.afterWrites_zero

/-! RESET (R105, R106). -/

/-- Settles O31: the word by its row, the errors by the checks, and the next state context by context. -/
theorem resetRule : Obligations.ResetRule := by
  intro c s
  refine ⟨fun w hop => executeWord_reset hop, fun hc => ?badIndex, fun hc hb => ?ctxUnbound, fun hc hb => ?cleared⟩
  case badIndex => rw [exec_badIndex_of_usedC rfl hc, State.fail_eq]; rfl
  case ctxUnbound => rw [exec_ctxUnbound_of_needsBound rfl hc hb, State.fail_eq]; rfl
  case cleared => exact ⟨_, exec_reset hc hb, by simp [hb], fun d hd => by simp [hd], rfl⟩

/-- Clearing the `CRC` of a bound context is binding it afresh to its own slot (R106). -/
theorem State.setCrc_eq_setCtx_of_bound (hb : (s.ctx c).bound = true) (v : Byte) :
    s.setCrc c v = s.setCtx c { crc := v, bindt := (s.ctx c).bindt, bound := true } := by
  rw [State.setCrc, ← hb]

/-- Settles O32: under the invariant a bound context and its slot pass the checks of RESET, BIND and SUM8, and RESET and BIND
write the same context. -/
theorem resetIsFreshBind : Obligations.ResetIsFreshBind := by
  intro c s hinv hb
  have hc : c.toNat < s.config.nd := hinv.boundExists c hb
  obtain ⟨ht, hbuilt⟩ := hinv.boundBuilt c hb
  refine ⟨?sameState, _, exec_reset hc hb, ?sum8⟩
  case sameState => rw [exec_reset hc hb, exec_bind hc ht hbuilt, State.setCrc_eq_setCtx_of_bound hb]
  case sum8 =>
    rw [exec_sum8 (by simpa using hc) (by simpa using hb), State.respond_eq]
    simp

/-! SUM8 and SUMAPPEND (R107, R114). -/

/-- Settles O33: the word by its row, the errors by the checks, and the `CRC` read. -/
theorem sum8Rule : Obligations.Sum8Rule := by
  intro c s
  refine ⟨fun w hop => executeWord_sum8 hop, fun hc => ?badIndex, fun hc hb => ?ctxUnbound, fun hc hb => ?value⟩
  case badIndex => rw [exec_badIndex_of_usedC rfl hc, State.fail_eq]; rfl
  case ctxUnbound => rw [exec_ctxUnbound_of_needsBound rfl hc hb, State.fail_eq]; rfl
  case value => rw [exec_sum8 hc hb, State.respond_eq]

/-- Settles O36: the host puts the value that SUM8 responds after its buffer, and SUM8 only adds a response. -/
theorem sumAppendPutsValueLast : Obligations.SumAppendPutsValueLast := by
  intro c buffer s hc hb
  have hsum8 := issue_of_exec_respond (exec_sum8 hc hb)
  exact ⟨s.respond (s.ctx c).crc, by simp [sumAppend, hsum8, andThen], rfl, rfl, rfl, rfl⟩

/-! SIZE and BLKSZ (R110, R112). -/

/-- Settles O34: SIZE makes no check, and its word is the one word of its row. -/
theorem sizeRule : Obligations.SizeRule :=
  fun _ => ⟨rfl, fun _ hop => executeWord_of_noOperands (r := ⟨"SIZE", 0x80000000#32, 0xFFFFFFFF#32⟩)
    (by simp [opcodeTable]) rfl rfl hop⟩

/-- Settles O35: BLKSZ makes no check, and its word is the one word of its row. -/
theorem blkszRule : Obligations.BlkszRule :=
  fun _ => ⟨rfl, fun _ hop => executeWord_of_noOperands (r := ⟨"BLKSZ", 0x90000000#32, 0xFFFFFFFF#32⟩)
    (by simp [opcodeTable]) rfl rfl hop⟩

end Sys2Proof.Machine
end

section
/-! RDSTAT and `STATUS` (43_status.md R120, R121): the response word as a number, and that no other command's checks or
meaning look at `STATUS`. -/

namespace Sys2Proof.Machine

variable {s u : State} {i : Instr} {e : ErrorCode}

/-! `STATUS` is written by the first failure, and read by RDSTAT alone (R121). -/

/-- A command whose checks report an error fails with that error (R137). -/
theorem exec_of_firstError (hf : s.firstError i = some e) : exec i s = .next (s.fail e) := by
  have hctx : ∀ c ∈ needsBound i, c ∈ usedC i := by
    cases i <;> simp [needsBound, usedC]
  simp only [State.firstError] at hf
  split_ifs at hf with hc ht hb hbuilt hfree <;> cases hf
  · obtain ⟨c, hi, hle⟩ := hc
    exact exec_badIndex_of_usedC hi hle
  · obtain ⟨t, hi, hle⟩ := ht
    cases i with
    | build => cases hi; exact exec_build_badIndex hle
    | bind c => cases hi; exact exec_bind_badSlot (by simpa [usedC] using hc) hle
    | update => cases hi; exact exec_update_badIndex hle
    | tread => cases hi; exact exec_tread_badIndex hle
    | write | reset | sum8 | size | blksz | rdstat => cases hi
  · obtain ⟨c, hi, hunbound⟩ := hb
    exact exec_ctxUnbound_of_needsBound hi (not_le.1 fun hle => hc ⟨c, hctx c hi, hle⟩) hunbound
  · obtain ⟨t, hi, hunbuilt⟩ := hbuilt
    cases i with
    | bind c =>
      cases hi
      exact exec_bind_tableUnbuilt (by simpa [usedC] using hc) (by simpa [usedT] using ht) hunbuilt
    | update => cases hi; exact exec_update_tableUnbuilt (by simpa [usedT] using ht) hunbuilt
    | tread => cases hi; exact exec_tread_tableUnbuilt (by simpa [usedT] using ht) hunbuilt
    | build | write | reset | sum8 | size | blksz | rdstat => cases hi
  · obtain ⟨t, hi, huse⟩ := hfree
    cases i with
    | build => cases hi; exact exec_build_tableInUse (by simpa [usedT] using ht) huse
    | bind | write | reset | sum8 | update | tread | size | blksz | rdstat => cases hi

/-- A command that passes its checks carries `STATUS` through: with another one it does the same and keeps that one. -/
theorem exec_withStatus_of_noError (hi : i ≠ .rdstat) (hf : s.firstError i = none) (hx : exec i s = .next u)
    (x : Status) : exec i { s with status := x } = .next { u with status := x } := by
  obtain ⟨hc, ht, hbound, hbuilt, hfree⟩ := State.firstError_eq_none.1 hf
  cases i with
  | build t poly =>
    cases hx.symm.trans (exec_build (ht t rfl) (hfree t rfl) poly)
    exact exec_build (s := { s with status := x }) (ht t rfl) (hfree t rfl) poly
  | bind c t =>
    cases hx.symm.trans (exec_bind (hc c rfl) (ht t rfl) (hbuilt t rfl))
    exact exec_bind (hc c rfl) (ht t rfl) (hbuilt t rfl)
  | write c b =>
    cases hread : s.tableRead (s.ctx c).bindt ((s.ctx c).crc ^^^ b) with
    | none => simp [exec_write_noValue (hc c rfl) (hbound c rfl) hread] at hx
    | some y =>
      cases hx.symm.trans (exec_write (hc c rfl) (hbound c rfl) hread)
      exact exec_write (hc c rfl) (hbound c rfl) hread
  | reset c =>
    cases hx.symm.trans (exec_reset (hc c rfl) (hbound c rfl))
    exact exec_reset (hc c rfl) (hbound c rfl)
  | sum8 c =>
    cases hx.symm.trans (exec_sum8 (hc c rfl) (hbound c rfl))
    exact exec_sum8 (hc c rfl) (hbound c rfl)
  | update t v b =>
    cases hread : s.tableRead t (v ^^^ b) with
    | none => simp [exec_update_noValue (ht t rfl) (hbuilt t rfl) hread] at hx
    | some y =>
      cases hx.symm.trans (exec_update (ht t rfl) (hbuilt t rfl) hread)
      exact exec_update (ht t rfl) (hbuilt t rfl) hread
  | tread t idx =>
    cases hread : s.tableRead t idx with
    | none => simp [exec_tread_noValue (ht t rfl) (hbuilt t rfl) hread] at hx
    | some y =>
      cases hx.symm.trans (exec_tread (ht t rfl) (hbuilt t rfl) hread)
      exact exec_tread (ht t rfl) (hbuilt t rfl) hread
  | size | blksz => cases hx; rfl
  | rdstat => exact absurd rfl hi

/-- Settles O38: the checks look at no `STATUS`; a failed command records its error in whichever one stands, and one that
passes its checks carries it through. -/
theorem onlyRdstatReadsStatus : Obligations.OnlyRdstatReadsStatus := by
  intro i s u x hi hx
  cases hf : s.firstError i with
  | some e =>
    have hsame : State.firstError { s with status := x } i = some e := hf
    cases hx.symm.trans (exec_of_firstError hf)
    exact ⟨_, exec_of_firstError hsame, rfl⟩
  | none => exact ⟨_, exec_withStatus_of_noError hi hf hx x, rfl⟩

/-! RDSTAT (R120). -/

/-- `STATUS` as a number: `ERR` in bit 7 and `ECODE` in bits 2:0 (R27). -/
theorem Status.word_eq_ofNat (x : Status) :
    x.word = BitVec.ofNat 8 ((if x.err then 0x80 else 0) + x.ecode.toNat) := by
  have hall : ∀ (err : Bool) (ecode : BitVec 3),
      Status.word ⟨err, ecode⟩ = BitVec.ofNat 8 ((if err then 0x80 else 0) + ecode.toNat) := by decide
  exact hall x.err x.ecode

/-- The response word of a command that succeeded as a number: `CFG` above the reserved byte and `DATA` (R66). -/
theorem responseWord_ok_eq_ofNat (cfg data : Byte) :
    responseWord 0x00#8 cfg data = BitVec.ofNat 32 (cfg.toNat * 2 ^ 16 + data.toNat) := by
  have hdata : data.toNat < 2 ^ 16 := data.isLt.trans (by decide)
  rw [← Nat.shiftLeft_eq, Nat.shiftLeft_add_eq_or_of_lt hdata, BitVec.ofNat_or, ofNat_shiftLeft, BitVec.ofNat_toNat,
    BitVec.ofNat_toNat]
  simp [responseWord]

/-- The response word of RDSTAT as a number, field by field (R66, R120). -/
theorem rdstat_responseWord (k : Config) (x : Status) : responseWord 0x00#8 (configByte k) x.word =
    BitVec.ofNat 32 ((k.nd - 1) * 2 ^ 20 + (k.nt - 1) * 2 ^ 16 + (if x.err then 0x80 else 0) + x.ecode.toNat) := by
  have hnd := k.ndLess1.isLt
  have hnt := k.ntLess1.isLt
  have hecode := x.ecode.isLt
  have hsum : ((k.nd - 1) * 16 + (k.nt - 1)) * 2 ^ 16 + ((if x.err then 0x80 else 0) + x.ecode.toNat) =
      (k.nd - 1) * 2 ^ 20 + (k.nt - 1) * 2 ^ 16 + (if x.err then 0x80 else 0) + x.ecode.toNat := by ring
  rw [responseWord_ok_eq_ofNat, configByte_eq_ofNat, Status.word_eq_ofNat, BitVec.toNat_ofNat, BitVec.toNat_ofNat,
    Nat.mod_eq_of_lt (by simp only [Config.nd, Config.nt]; omega), Nat.mod_eq_of_lt (by split <;> omega), hsum]

/-- Settles O37: RDSTAT makes no check, its response is `rdstat_responseWord`, and its word is the one word of its row. -/
theorem rdstatRule : Obligations.RdstatRule := by
  refine fun s => ⟨?response, fun w hop => executeWord_of_noOperands (r := ⟨"RDSTAT", 0xA0000000#32, 0xFFFFFFFF#32⟩)
    (by simp [opcodeTable]) rfl rfl hop⟩
  case response => rw [← rdstat_responseWord]; rfl

end Sys2Proof.Machine
end

section
/-! Errors and progress (60_exceptions.md): which words are illegal (R132), the order of the checks (R137), what a failed
command changes (R136, R138), and that from a state of the invariant the machine goes on (R130, R157). -/

namespace Sys2Proof.Machine

variable {s u : State} {i j : Instr} {w r : Word} {code : Nat}

/-! Progress (R147, R157). -/

/-- With nothing to come, the step leaves the state (R147). -/
theorem step_of_nextInput_none (hn : s.nextInput (Config.arbiter s.turn) = none) : step s = .next s := by
  simp only [step, stepWith, hn]

/-- Settles O9: where no source waits nothing comes next. -/
theorem idleEngineHoldsState : Obligations.IdleEngineHoldsState :=
  fun _ hq hc => step_of_nextInput_none (State.nextInput_eq_none.2 (State.waiting_eq_nil.2 ⟨hq, hc⟩))

/-- Under the invariant every entry that a command reads has a value: its slot is built, by the command's check or because
a bound context names it (R26). -/
theorem State.Inv.exists_exec_next (hi : s.Inv) (i : Instr) : ∃ u, exec i s = .next u := by
  cases hx : exec i s with
  | next u => exact ⟨u, rfl⟩
  | refused r => exact absurd hx (exec_not_refused i s r)
  | fault f =>
    obtain ⟨t, idx, -, hnone, hslot⟩ := exec_fault hx
    have hbuilt : s.isBuilt t = true := by
      rcases hslot with hbuilt | ⟨c, hb, rfl⟩
      · exact hbuilt
      · exact (hi.boundBuilt c hb).2
    obtain ⟨poly, htable⟩ := hi.builtTable t hbuilt
    simp [htable] at hnone

theorem State.Inv.exists_executeWord_next (hi : s.Inv) (w : Word) : ∃ u, executeWord w s = .next u := by
  cases hd : decode w with
  | ok i => rw [executeWord_of_decode_ok hd]; exact hi.exists_exec_next i
  | error e => exact ⟨_, executeWord_of_decode_error hd⟩

/-- Settles O55: an idle step, a dropped command and a reset event always have a next state; a word that is executed has
one under the invariant, since no command sees the port. -/
theorem engineNeverStops : Obligations.EngineNeverStops := by
  intro s hi
  cases hn : s.nextInput (Config.arbiter s.turn) with
  | none => exact ⟨s, step_of_nextInput_none hn⟩
  | some x =>
    cases x with
    | resetLine change => cases change <;> simp [step, stepWith, hn, deliver]
    | command h w =>
      by_cases hr : s.resetHeld = true
      · simp [step, stepWith, hn, deliver, hr]
      · obtain ⟨u, hu⟩ := hi.exists_executeWord_next w
        have hport := executeWord_withPortOf s w ((s.taken (.command h w)).serve h)
        rw [hu, outcomeWithPortOf_next] at hport
        exact ⟨_, (step_command hn (by simpa using hr)).trans hport⟩

/-! Illegal words (R132). -/

/-- A word that decodes to no command fails with ILLEGAL and is not executed. -/
theorem executeWord_of_illegal (hw : ∃ e, decode w = .error e) : executeWord w s = .next (s.afterFailure 1) := by
  obtain ⟨e, he⟩ := hw
  rw [executeWord_of_decode_error he, State.fail_eq]
  rfl

theorem exists_ifUnusedZero_eq_error {zero : Bool} : (∃ e, ifUnusedZero zero i = .error e) ↔ zero = false := by
  cases zero <;> simp [ifUnusedZero]

/-- A word is illegal by its `OP`, by its `RSV`, or by the fields its command does not use. -/
theorem exists_decode_eq_error : (∃ e, decode w = .error e) ↔ fieldOP w = 0x0 ∨ fieldOP w ≥ 0xB ∨ fieldRSV w ≠ 0 ∨
    ∃ e, decodeByOpcode (fieldOP w) (fieldT w) (fieldC w) (fieldV w) (fieldB w) = .error e := by
  simp only [decode]
  split_ifs with hop hrsv
  · exact iff_of_true ⟨_, rfl⟩ (hop.imp_right .inl)
  · exact iff_of_true ⟨_, rfl⟩ (.inr (.inr (.inl hrsv)))
  · obtain ⟨hzero, hlow⟩ := not_or.1 hop
    rw [or_iff_right hzero, or_iff_right hlow, or_iff_right hrsv]

/-- The six fields of a word by their bits (R61). -/
theorem extractLsb'_eq_field (w : Word) : w.extractLsb' 28 4 = fieldOP w ∧ w.extractLsb' 24 4 = fieldRSV w ∧
    w.extractLsb' 20 4 = fieldT w ∧ w.extractLsb' 16 4 = fieldC w ∧ w.extractLsb' 8 8 = fieldV w ∧
    w.extractLsb' 0 8 = fieldB w :=
  ⟨rfl, rfl, rfl, rfl, rfl, rfl⟩

/-- Bits 27:0 of a word are `RSV` and the four operand fields (R61). -/
theorem bits27to0_eq_zero : w.extractLsb' 0 28 = 0#28 ↔
    fieldRSV w = 0 ∧ fieldT w = 0 ∧ fieldC w = 0 ∧ fieldV w = 0 ∧ fieldB w = 0 := by
  simp only [fieldRSV, fieldT, fieldC, fieldV, fieldB, ← BitVec.toNat_inj, BitVec.extractLsb'_toNat,
    Nat.shiftRight_eq_div_pow, BitVec.ofNat_eq_ofNat, BitVec.toNat_ofNat]
  omega

/-- The opcodes of the ten commands (R63). -/
theorem command_opcodes : ∀ op : BitVec 4, ¬ op = 0x0 → ¬ op ≥ 0xB → op = 0x1 ∨ op = 0x2 ∨ op = 0x3 ∨ op = 0x4 ∨
    op = 0x5 ∨ op = 0x6 ∨ op = 0x7 ∨ op = 0x8 ∨ op = 0x9 ∨ op = 0xA := by decide

/-- Settles O4: with `OP` a command's and `RSV` zero, the word is illegal by the check of that command's unused fields. -/
theorem illegalWordsAreNotExecuted : Obligations.IllegalWordsAreNotExecuted := by
  refine fun w s => ⟨?fields, executeWord_of_illegal⟩
  case fields =>
    simp only [exists_decode_eq_error, ne_eq, bits27to0_eq_zero, extractLsb'_eq_field w]
    refine or_congr_right' fun hzero => or_congr_right' fun hlow => or_congr_right' fun hrsv => ?_
    rcases command_opcodes (fieldOP w) hzero hlow with hop | hop | hop | hop | hop | hop | hop | hop | hop | hop
    all_goals simp [hop, not_not.1 hrsv, decodeByOpcode, exists_ifUnusedZero_eq_error, imp_iff_not_or, or_assoc]

/-! The order of the checks (R137). -/

/-- What it is for a command to succeed from `s` to `u`: `STATUS` stays, and the one response has `ST` 0x00 (R66). -/
def Succeeds (s u : State) : Prop := u.status = s.status ∧ ∃ r, u.responses = s.responses ++ [r] ∧ responseST r = 0x00#8

/-- A command that changes neither `STATUS` nor the record and then responds with `ST` 0x00 succeeds. -/
theorem succeeds_of_reply {v : State} {cfg data : Byte} (hx : exec i s = .next u)
    (hv : exec i s = .next (v.reply (responseWord 0x00#8 cfg data))) (hstatus : v.status = s.status)
    (hresp : v.responses = s.responses) : Succeeds s u := by
  cases hx.symm.trans hv
  exact ⟨hstatus, _, by rw [State.reply_responses, hresp], by simp⟩

/-- A command that passes its checks succeeds where it goes on. -/
theorem succeeds_of_noError (hf : s.firstError i = none) (hx : exec i s = .next u) : Succeeds s u := by
  obtain ⟨hc, ht, hbound, hbuilt, hfree⟩ := State.firstError_eq_none.1 hf
  cases i with
  | build t poly => exact succeeds_of_reply hx (exec_build (ht t rfl) (hfree t rfl) poly) rfl rfl
  | bind c t => exact succeeds_of_reply hx (exec_bind (hc c rfl) (ht t rfl) (hbuilt t rfl)) rfl rfl
  | write c b =>
    cases hread : s.tableRead (s.ctx c).bindt ((s.ctx c).crc ^^^ b) with
    | none => simp [exec_write_noValue (hc c rfl) (hbound c rfl) hread] at hx
    | some x => exact succeeds_of_reply hx (exec_write (hc c rfl) (hbound c rfl) hread) rfl rfl
  | reset c => exact succeeds_of_reply hx (exec_reset (hc c rfl) (hbound c rfl)) rfl rfl
  | sum8 c => exact succeeds_of_reply hx (exec_sum8 (hc c rfl) (hbound c rfl)) rfl rfl
  | update t v b =>
    cases hread : s.tableRead t (v ^^^ b) with
    | none => simp [exec_update_noValue (ht t rfl) (hbuilt t rfl) hread] at hx
    | some x => exact succeeds_of_reply hx (exec_update (ht t rfl) (hbuilt t rfl) hread) rfl rfl
  | tread t idx =>
    cases hread : s.tableRead t idx with
    | none => simp [exec_tread_noValue (ht t rfl) (hbuilt t rfl) hread] at hx
    | some x => exact succeeds_of_reply hx (exec_tread (ht t rfl) (hbuilt t rfl) hread) rfl rfl
  | size | blksz | rdstat => exact succeeds_of_reply hx rfl rfl rfl

/-- Settles O40: an illegal word by `executeWord_of_illegal`, a failing check by `exec_of_firstError`, no failing check by
`succeeds_of_noError`; and each command has at most one of the last three checks. -/
theorem firstFailingCheckGivesError : Obligations.FirstFailingCheckGivesError := by
  refine ⟨fun w s => executeWord_of_illegal, fun i s e hf => ?error, fun i s u => succeeds_of_noError, fun i => ?last⟩
  case error => rw [exec_of_firstError hf, State.fail_eq]
  case last => cases i <;> simp [needsBound, needsBuilt, needsFree]

/-- A used index out of range is the first error: its check is made before any that reads the storage (R133). -/
theorem firstError_badIndex (h : (∃ t ∈ usedT i, s.config.nt ≤ t.toNat) ∨ ∃ c ∈ usedC i, s.config.nd ≤ c.toNat) :
    s.firstError i = some .badIndex := by
  by_cases hc : ∃ c ∈ usedC i, s.config.nd ≤ c.toNat
  · rw [State.firstError, if_pos hc]
  · rw [State.firstError, if_neg hc, if_pos (h.resolve_right hc)]

/-- Settles O41: BAD_INDEX is the first error; and an index of four bits is below 16. -/
theorem badIndexBeforeStorage : Obligations.BadIndexBeforeStorage := by
  refine ⟨fun i s h => ?badIndex, fun s hnt t => hnt ▸ t.isLt, fun s hnd c => hnd ▸ c.isLt⟩
  case badIndex => rw [exec_of_firstError (firstError_badIndex h), State.fail_eq]; rfl

/-! What a failed command changes (R130, R136, R138). -/

/-- The `ST` field of the response of a failure is its code. -/
theorem responseST_afterFailure (hlo : 1 ≤ code) (hhi : code ≤ 5) :
    responseST (BitVec.ofNat 32 (code * 2 ^ 24)) ≠ 0x00#8 := by
  interval_cases code <;> decide

/-- A command that fails does so by a check. -/
theorem exists_firstError_of_afterFailure (hlo : 1 ≤ code) (hhi : code ≤ 5) (hx : exec i s = .next (s.afterFailure code)) :
    ∃ e, s.firstError i = some e := by
  refine Option.ne_none_iff_exists'.1 fun hf => ?_
  obtain ⟨-, r, hr, hst⟩ := succeeds_of_noError hf hx
  obtain rfl : BitVec.ofNat 32 (code * 2 ^ 24) = r := by simpa [State.afterFailure] using hr
  exact responseST_afterFailure hlo hhi hst

/-- Commands with the same first error fail alike. -/
theorem exec_eq_afterFailure_of_firstError_eq (hlo : 1 ≤ code) (hhi : code ≤ 5) (hij : s.firstError j = s.firstError i)
    (hx : exec i s = .next (s.afterFailure code)) : exec j s = .next (s.afterFailure code) := by
  obtain ⟨e, he⟩ := exists_firstError_of_afterFailure hlo hhi hx
  rw [exec_of_firstError (hij.trans he), ← exec_of_firstError he, hx]

/-- Settles O42: no check looks at a byte operand, so the first error is the same. -/
theorem noDataValueCausesError : Obligations.NoDataValueCausesError :=
  fun _ _ _ _ _ _ _ _ _ _ hlo hhi =>
    ⟨exec_eq_afterFailure_of_firstError_eq hlo hhi rfl, exec_eq_afterFailure_of_firstError_eq hlo hhi rfl,
      exec_eq_afterFailure_of_firstError_eq hlo hhi rfl, exec_eq_afterFailure_of_firstError_eq hlo hhi rfl⟩

/-- Every word has an effect of a command. The failure of an illegal word is an effect that any command can have; SIZE
stands for them. -/
theorem executeWord_effect (hx : executeWord w s = .next u) : ∃ i, Effect i s u := by
  cases hd : decode w with
  | ok i => exact ⟨i, exec_effect (executeWord_of_decode_ok hd ▸ hx)⟩
  | error e =>
    cases hx.symm.trans (executeWord_of_decode_error hd)
    exact ⟨.size, .failed .illegal⟩

/-- An effect whose response has another `ST` than 0x00 is a failure. -/
theorem Effect.eq_fail_of_responseST (h : Effect i s u) (hr : u.responses = s.responses ++ [r])
    (hst : responseST r ≠ 0x00#8) : ∃ e, u = s.fail e ∧ r = responseWord e.code 0x00#8 0x00#8 := by
  cases h with
  | failed e =>
    cases List.append_cancel_left hr
    exact ⟨e, rfl, rfl⟩
  | read | status | built | bound | folded | cleared =>
    cases List.append_cancel_left hr
    exact absurd (responseST_responseWord _ _ _) hst

theorem responseWord_failure (st : Byte) : responseWord st 0x00#8 0x00#8 = st ++ (0#24 : BitVec 24) := by
  apply BitVec.eq_of_getLsbD_eq
  intro k hk
  rw [BitVec.getLsbD_append]
  interval_cases k <;> simp [responseWord]

/-- Settles O43: the word's effect is a failure, and its code is the `ST` of its response. -/
theorem failuresArePrecise : Obligations.FailuresArePrecise := by
  intro w s u r hx hr hst
  obtain ⟨i, he⟩ := executeWord_effect hx
  obtain ⟨e, rfl, rfl⟩ := he.eq_fail_of_responseST hr hst
  rw [responseST_responseWord]
  exact ⟨s.fail_eq e, responseWord_failure e.code⟩

/-- With `ERR` 1 no effect changes `STATUS`. -/
theorem Effect.status_of_err (h : Effect i s u) (herr : s.status.err = true) : u.status = s.status := by
  cases h with
  | failed e => simp [Status.record, herr]
  | read | status | built | bound | folded | cleared => rfl

/-- With `ERR` 1 a failure adds its response and changes nothing else. -/
theorem State.fail_of_err (herr : s.status.err = true) (e : ErrorCode) :
    s.fail e = s.reply (responseWord e.code 0x00#8 0x00#8) := by
  simp [State.fail, Status.record, herr]

/-- Settles O44: with `ERR` 1 no effect changes `STATUS`, and a step is an effect, changes no engine state, or is the reset
line going up. -/
theorem statusIsStickyUntilReset : Obligations.StatusIsStickyUntilReset := by
  refine ⟨fun w s u herr hx => ?command, fun w s u r herr hx hr hst => ?failure, fun s u herr hstep => ?step⟩
  case command =>
    obtain ⟨i, he⟩ := executeWord_effect hx
    exact he.status_of_err herr
  case failure =>
    obtain ⟨i, he⟩ := executeWord_effect hx
    obtain ⟨e, rfl, rfl⟩ := he.eq_fail_of_responseST hr hst
    exact State.fail_of_err herr e
  case step =>
    rcases step_engine_cases hstep with ⟨hreset, -⟩ | ⟨-, hsame⟩ | ⟨i, v, -, hsame, he⟩
    · exact .inr hreset
    · exact .inl hsame.status
    · exact .inl ((he.status_of_err (hsame.status ▸ herr)).trans hsame.status)

end Sys2Proof.Machine
end

section
/-! Hardware reset (70_reset_and_hazards.md): what a fresh engine answers before the boot order (R151, R152), what the reset
line going up leaves (R150), and what comes while reset is held (R153). -/

namespace Sys2Proof.Machine

variable {s : State} {x : Input} {c : Index}

/-! A fresh engine (R151, R152). -/

/-- No context of a fresh engine is bound, so a command that needs one bound fails with CTX_UNBOUND (R135, R150). -/
theorem exec_ctxUnbound_of_resetWith {k : Config} {i : Instr} (hi : c ∈ needsBound i) (hc : c.toNat < k.nd) :
    exec i (State.resetWith k) = .next ((State.resetWith k).afterFailure 4) := by
  have hunbound : ((State.resetWith k).ctx c).bound = false := by rw [State.ctx_resetWith]; rfl
  rw [exec_ctxUnbound_of_needsBound hi hc hunbound, State.fail_eq]
  rfl

/-- RDSTAT of a fresh engine responds with its configuration and a `STATUS` of 0x00 (R120, R150). -/
theorem exec_rdstat_resetWith (k : Config) : exec .rdstat (State.resetWith k) =
    .next { State.resetWith k with responses := [responseWord 0x00#8 (configByte k) 0x00#8] } := by
  rw [← Status.word_afterReset]
  rfl

/-- Settles O16: SIZE, BLKSZ and RDSTAT make no check; no slot is built and no context bound, so each other command fails
the check that needs one. -/
theorem freshEngineNeedsBoot : Obligations.FreshEngineNeedsBoot := by
  intro k t c v b
  have hunbuilt : (State.resetWith k).isBuilt t = false := State.isBuilt_resetWith k t
  refine ⟨(sizeRule _).1, (blkszRule _).1, ⟨_, exec_rdstat_resetWith k, by simp, by simp⟩, fun ht => ?update,
    fun ht => ?tread, fun hc ht => ?bind, exec_ctxUnbound_of_resetWith rfl, exec_ctxUnbound_of_resetWith rfl,
    exec_ctxUnbound_of_resetWith rfl⟩
  case update => rw [exec_update_tableUnbuilt ht hunbuilt, State.fail_eq]; rfl
  case tread => rw [exec_tread_tableUnbuilt ht hunbuilt, State.fail_eq]; rfl
  case bind => rw [exec_bind_tableUnbuilt hc ht hunbuilt, State.fail_eq]; rfl

/-! The reset line (R150, R153). -/

/-- The step deals with the input that comes next. -/
theorem step_of_nextInput_some (hn : s.nextInput (Config.arbiter s.turn) = some x) : step s = deliver x s := by
  simp only [step, stepWith, hn]

/-- The reset line going up gives the engine the values of hardware reset and leaves its configuration. -/
theorem exists_step_asserted (hn : s.nextInput (Config.arbiter s.turn) = some (.resetLine .asserted)) :
    ∃ u, step s = .next u ∧ u.config = s.config ∧ u.sameEngine s.hardwareReset :=
  ⟨_, step_of_nextInput_some hn, rfl, rfl, rfl, rfl, rfl⟩

/-- Settles O13: the engine's state is that of `State.hardwareReset`, where no slot is built, so TREAD fails. -/
theorem hardwareResetValues : Obligations.HardwareResetValues := by
  intro s hn
  obtain ⟨u, hstep, hconfig, hengine⟩ := exists_step_asserted hn
  have hunbuilt (t : Index) : u.isBuilt t = false := by rw [hengine.isBuilt, State.isBuilt_hardwareReset]
  have hstatus : u.status = Status.afterReset := hengine.status
  refine ⟨u, hstep, hunbuilt, fun c => ?contexts, by rw [hstatus]; rfl, by rw [hstatus]; rfl,
    by rw [hstatus, Status.word_afterReset], hconfig, fun t i ht => ?tread⟩
  case contexts => simp [hengine.ctx, Context.afterReset]
  case tread => rw [exec_tread_tableUnbuilt ht (hunbuilt t), State.fail_eq]; rfl

/-- Settles O15: a command while reset is held is taken from its queue, and so is the line's release from its changes. -/
theorem commandDuringResetIsDropped : Obligations.CommandDuringResetIsDropped := by
  refine fun s => ⟨fun h w hn hheld => ?dropped, fun hn => ?released⟩
  case dropped =>
    rw [step_of_nextInput_some hn, deliver, if_pos hheld]
    rfl
  case released => exact step_of_nextInput_some hn

end Sys2Proof.Machine
end
